-- ==== Sys2Proof/Word.lean ====
section
/-! DEFINITION. The widths the spec names (spec/00_scope.md R8): `u8` and `s8` are both a `Byte`, the sign being a matter of
reading it (`BitVec.toNat` or `BitVec.toInt`, two's complement: spec/20_memory.md R59). -/

namespace Sys2Proof

/-- A register or table entry of eight bits (`u8`, or `s8` where it is read with `toInt`). -/
abbrev Byte := BitVec 8

/-- A signed intermediate of the ray generator (`s16`). -/
abbrev Half := BitVec 16

/-- An address of the register space (`u5`, spec/20_memory.md R53). -/
abbrev RegAddr := BitVec 5

end Sys2Proof
end

