-- ==== Sys2Proof/Syntax.lean ====
section
/-! DEFINITION. The commands, one constructor for each row of spec/opcode_table.json (spec/30_encoding.md R83). -/

namespace Sys2Proof

/-- A command. All operands but CASTI's column are implicit (R84, R85). -/
inductive Instr where
  | nop
  | cast
  | strip
  | rot
  | lddir
  | ldrec
  | ldhgt
  | ldcell
  | addx
  | addy
  | casti (imm6 : BitVec 6)
  deriving DecidableEq, Repr

end Sys2Proof
end

