-- ==== Sys2Proof/Decode.lean ====
section
/-! DEFINITION. Decoding and encoding of the command byte (spec/30_encoding.md R80 to R87). -/

namespace Sys2Proof

/-- What `decode` gives: a command, or the name `reserved` (R83). All reserved bytes behave alike (R86). -/
inductive Decoded where
  | command (i : Instr)
  | reserved
  deriving DecidableEq, Repr

/-- The two formats (R81, R82). -/
inductive Format where
  | z
  | i
  deriving DecidableEq, Repr

/-- Bits 7:6 of the byte, the field `fmt`. -/
def fmtField (v : Byte) : BitVec 2 :=
  v.extractLsb' 6 2

/-- Bits 5:0 of the byte: `op` in Format Z, `imm6` in Format I. -/
def lowField (v : Byte) : BitVec 6 :=
  v.extractLsb' 0 6

/-- The Format Z commands by their `op` (R83); the rest of the format is reserved (R86). -/
def decodeZ (op : BitVec 6) : Decoded :=
  match op.toNat with
  | 0x00 => .command .nop
  | 0x01 => .command .cast
  | 0x02 => .command .strip
  | 0x03 => .command .rot
  | 0x04 => .command .lddir
  | 0x05 => .command .ldrec
  | 0x06 => .command .ldhgt
  | 0x07 => .command .ldcell
  | 0x08 => .command .addx
  | 0x09 => .command .addy
  | _ => .reserved

/-- `decode` of R83: total on the 256 bytes. -/
def decode (v : Byte) : Decoded :=
  match (fmtField v).toNat with
  | 0 => decodeZ (lowField v)
  | 1 => .command (.casti (lowField v))
  | _ => .reserved

/-- The format of a command (R83). -/
def Instr.format : Instr → Format
  | .nop => .z
  | .cast => .z
  | .strip => .z
  | .rot => .z
  | .lddir => .z
  | .ldrec => .z
  | .ldhgt => .z
  | .ldcell => .z
  | .addx => .z
  | .addy => .z
  | .casti _ => .i

/-- The field `fmt` of a format (R81, R82). -/
def Format.bits : Format → BitVec 2
  | .z => 0b00#2
  | .i => 0b01#2

/-- Bits 5:0 of a command's byte: `op` or `imm6` (R83, R84). -/
def Instr.low : Instr → BitVec 6
  | .nop => 0x00
  | .cast => 0x01
  | .strip => 0x02
  | .rot => 0x03
  | .lddir => 0x04
  | .ldrec => 0x05
  | .ldhgt => 0x06
  | .ldcell => 0x07
  | .addx => 0x08
  | .addy => 0x09
  | .casti c => c

/-- The byte of a command: `fmt` over the low field (R81, R82). -/
def encode (i : Instr) : Byte :=
  i.format.bits ++ i.low

/-- One row of spec/opcode_table.json: a byte `v` belongs to it when `v &&& mask = bits`. -/
structure OpRow where
  mnemonic : String
  mask : Byte
  bits : Byte
  deriving DecidableEq, Repr

/-- The opcode table as the spec prints it, independent of `decode`. -/
def opcodeTable : List OpRow :=
  [ ⟨"NOP", 0xFF, 0x00⟩, ⟨"CAST", 0xFF, 0x01⟩, ⟨"STRIP", 0xFF, 0x02⟩, ⟨"ROT", 0xFF, 0x03⟩,
    ⟨"LDDIR", 0xFF, 0x04⟩, ⟨"LDREC", 0xFF, 0x05⟩, ⟨"LDHGT", 0xFF, 0x06⟩, ⟨"LDCELL", 0xFF, 0x07⟩,
    ⟨"ADDX", 0xFF, 0x08⟩, ⟨"ADDY", 0xFF, 0x09⟩, ⟨"CASTI", 0xC0, 0x40⟩ ]

/-- Does the byte belong to the row? -/
def OpRow.covers (r : OpRow) (v : Byte) : Bool :=
  v &&& r.mask == r.bits

/-- The row's name of a command. -/
def Instr.mnemonic : Instr → String
  | .nop => "NOP"
  | .cast => "CAST"
  | .strip => "STRIP"
  | .rot => "ROT"
  | .lddir => "LDDIR"
  | .ldrec => "LDREC"
  | .ldhgt => "LDHGT"
  | .ldcell => "LDCELL"
  | .addx => "ADDX"
  | .addy => "ADDY"
  | .casti _ => "CASTI"

/-- The command byte of a table word: bits from `nbits` up are 0, and a command is one byte (R80). -/
def tableByte (nbits w : Nat) : Byte :=
  BitVec.ofNat 8 (w % 2 ^ nbits)

/-- What `decode` reads from a word numbered as spec/opcode_table.json numbers it. -/
def decodeTableWord (nbits w : Nat) : Option Instr :=
  match decode (tableByte nbits w) with
  | .command i => some i
  | .reserved => none

end Sys2Proof
end

