-- ==== Sys2Proof/Config.lean ====
section
/-! DEFINITION. The configuration `cfg` (spec/00_scope.md R6): the contents of the three tables and of the grid, and the start
constants. The spec leaves every value open (decision D18), so the machine's own configuration is a constant without a body. -/

namespace Sys2Proof

/-- One entry of `direction_lut`: two signed bytes (R102). -/
structure Direction where
  dx : Byte
  dy : Byte
  deriving DecidableEq, Repr, Inhabited

/-- One cell of the grid (R105). As a bit, wall is 1 and floor is 0 (R50). -/
inductive GridCell where
  | floor
  | wall
  deriving DecidableEq, Repr, Inhabited

/-- The configuration. Each table has exactly as many entries as its index has values, so no index is out of range (R52), and a
grid that is not 8 by 8 cannot be written down (spec/93_implementation_defined.md U5). -/
structure Cfg where
  dir : Vector Direction 64
  recip : Vector Byte 256
  height : Vector Byte 256
  /-- `grid[my][mx]`. -/
  grid : Vector (Vector GridCell 8) 8
  startPosx : Byte
  startPosy : Byte
  startAngle : BitVec 6
  deriving DecidableEq, Repr, Inhabited

/-- The machine's configuration: fixed, and not given by the spec (R6, D18; log 1). Nothing can be proved of its contents. -/
opaque Config.cfg : Cfg

/-- Sub-units of one grid cell, `CELL` (R5). -/
def Config.cellUnits : Nat := 32

/-- The centre row of the strip, half of the screen height `H = 16` (R5, R191). -/
def Config.centreRow : Nat := 8

end Sys2Proof
end

