-- ==== Sys2Proof/Machine/State.lean ====
section
/-! DEFINITION. The state of the machine (spec/10_state.md), the events that act on it, the reasons a step can stop, and the state
after reset. -/

namespace Sys2Proof.Machine

/-- The sequencer's phase (R30). -/
inductive Phase where
  | idle
  | busy
  | faulted
  deriving DecidableEq, Repr

/-- The seven causes of a fault (spec/60_exceptions.md R200). They are values the fault register shows, and entering a fault is a
next state; they are not reasons for the model to stop. -/
inductive FaultCode where
  | illCmd
  | busyWr
  | recipZ
  | gridRng
  | sideOvf
  | hgtRng
  | stripRng
  deriving DecidableEq, Repr

/-- An event of one of the three agents (spec/00_scope.md R7; log 2, 9). -/
inductive Event where
  /-- The engine's turn: it completes the pending command if it is busy, and does nothing otherwise. -/
  | engine
  /-- `HostRead(addr)`. -/
  | read (addr : BitVec 5)
  /-- `HostWrite(addr, v)`. -/
  | write (addr : BitVec 5) (v : BitVec 8)
  /-- The environment's reset. -/
  | reset
  /-- The host's WAIT loop (spec/30_encoding.md R89); the engine gets its turn after `more + 1` reads have found it busy. -/
  | poll (more : Nat)
  deriving DecidableEq, Repr

/-- The state. The first twenty fields are the spec's (R36 lists them all), `cfg` is the fixed configuration (R34), and the last
two are the model's own: the events still to come and the bytes the host has read (log 2, 3). -/
structure State where
  posx : BitVec 8
  posy : BitVec 8
  angle : BitVec 6
  column : BitVec 6
  row : BitVec 4
  arg : BitVec 8
  result : BitVec 8
  glyph : BitVec 2
  data0 : BitVec 8
  data1 : BitVec 8
  rayx : BitVec 8
  rayy : BitVec 8
  perp : BitVec 8
  side : BitVec 8
  hitcell : BitVec 6
  steps : BitVec 4
  phase : Phase
  pend : BitVec 8
  done : Bool
  fcode : BitVec 4
  cfg : Cfg
  inputs : List Event
  reads : List (BitVec 8)
  deriving DecidableEq, Repr

/-- The values of the spec's table of reset values (R36), for a configuration `c`; no event pending, nothing read. -/
def State.resetWith (c : Cfg) : State :=
  { posx := c.startPosx, posy := c.startPosy, angle := c.startAngle, column := 0, row := 0, arg := 0,
    result := 0, glyph := 0, data0 := 0, data1 := 0,
    rayx := 0, rayy := 0, perp := 0, side := 0, hitcell := 0, steps := 0,
    phase := .idle, pend := 0, done := false, fcode := 0,
    cfg := c, inputs := [], reads := [] }

/-- The machine right after reset, under the configuration the spec leaves open. -/
def State.reset : State :=
  State.resetWith Config.cfg

/-- Why the model stops. Every fault the spec describes is a next state instead. -/
inductive Fault where
  /-- Raised by `complete` when the phase is busy and the pending byte is a reserved encoding. No run reaches this: accept loads
  `pend` with defined commands only (R32), an invariant that is stated. Safe: the model stops where the spec describes nothing. -/
  | reservedPending
  deriving DecidableEq, Repr

/-- Why the model has no meaning for an instruction. -/
inductive Refusal where
  /-- Raised by an arm of `exec` whose instruction has no meaning yet; no arm does. Safe: the model stops. -/
  | notModelled (mnemonic : String)
  deriving DecidableEq, Repr

end Sys2Proof.Machine
end

