-- ==== Sys2Proof/Machine/Flags.lean ====
section
/-! DEFINITION. The flags (spec/10_state.md R35): the carry and borrow of the 8-bit adder, and the bytes STATUS and FAULT. -/

namespace Sys2Proof.Machine

/-- `cout` of ADD8 (spec/41_arithmetic.md R130). -/
def carryOut (a b : Byte) : Bool :=
  decide (256 ≤ a.toNat + b.toNat)

/-- `bout` of SUB8 (R131). -/
def borrowOut (a b : Byte) : Bool :=
  decide (a.toNat < b.toNat)

/-- STATUS as read: bit 0 BUSY, bit 1 DONE, bit 2 FAULT, the rest 0 (R28). -/
def State.status (s : State) : Byte :=
  0#5 ++ BitVec.ofBool (decide (s.phase = .faulted)) ++ BitVec.ofBool s.done ++ BitVec.ofBool (decide (s.phase = .busy))

/-- FAULT as read: the code in bits 3:0, bits 7:4 zero (R29). -/
def State.faultByte (s : State) : Byte :=
  s.fcode.setWidth 8

end Sys2Proof.Machine
end

