-- ==== Sys2Proof/Machine/Arith.lean ====
section
/-! DEFINITION. The 8-bit adder and the other arithmetic primitives (spec/41_arithmetic.md). Each computes exactly and narrows once,
at its end. -/

namespace Sys2Proof.Machine

/-- ADD8: the sum modulo 256 and the carry out (R130). -/
def add8 (a b : Byte) : Byte × Bool :=
  (BitVec.ofNat 8 (a.toNat + b.toNat), carryOut a b)

/-- SUB8: the difference modulo 256 and the borrow out (R131). -/
def sub8 (a b : Byte) : Byte × Bool :=
  (BitVec.ofInt 8 ((a.toNat : Int) - (b.toNat : Int)), borrowOut a b)

/-- `neg8`: wraps at -128 only (R132). -/
def neg8 (s : Byte) : Byte :=
  BitVec.ofInt 8 (-s.toInt)

/-- `mul8x8`: the exact signed product, which always fits sixteen bits (R132). -/
def mul8x8 (a b : Byte) : Half :=
  BitVec.ofInt 16 (a.toInt * b.toInt)

/-- `div64`: divide by 64, truncating toward zero (R132, spec/00_scope.md R8 `tdiv`). -/
def div64 (p : Half) : Half :=
  BitVec.ofInt 16 (p.toInt.tdiv 64)

/-- `narrow_sum`: the exact sum, of which the low eight bits are kept; wraps, does not saturate (R132, spec/90_conflicts.md C2). -/
def narrowSum (d : Byte) (q : Half) : Byte :=
  BitVec.ofInt 8 (d.toInt + q.toInt)

/-- `abs8`: the magnitude as an unsigned byte, 128 for -128 (R138). -/
def abs8 (s : Byte) : Byte :=
  BitVec.ofNat 8 s.toInt.natAbs

/-- `scale32`: multiply, then drop the low five bits (R139). -/
def scale32 (edge : Nat) (delta : Byte) : Byte :=
  BitVec.ofNat 8 ((edge * delta.toNat) >>> 5)

/-- `lt8`: the unsigned comparison (R140). -/
def lt8 (a b : Byte) : Bool :=
  decide (a.toNat < b.toNat)

/-- `div3`: a third of a height, rounded down (R141). -/
def div3 (h : BitVec 7) : BitVec 6 :=
  BitVec.ofNat 6 (h.toNat / 3)

end Sys2Proof.Machine
end

