-- ==== Sys2Proof/Machine/Operands.lean ====
section
/-! DEFINITION. Operands: the fields of the operand registers (spec/10_state.md R21, R26; spec/30_encoding.md R84, R85), the reads of
the four ROM spaces (spec/20_memory.md R52) and the register map (R54). -/

namespace Sys2Proof.Machine

/-- `cell(P) = P[7:5]` (R21). -/
def cellOf (p : Byte) : BitVec 3 :=
  p.extractLsb' 5 3

/-- `off(P) = P[4:0]` (R21). -/
def offOf (p : Byte) : BitVec 5 :=
  p.extractLsb' 0 5

/-- The index of a probe of 64 entries, `ARG[5:0]` (R110, R113). -/
def argIndex (arg : Byte) : BitVec 6 :=
  arg.extractLsb' 0 6

/-- `mx` of a grid index `{my, mx}` (R113). -/
def indexMx (i : BitVec 6) : BitVec 3 :=
  i.extractLsb' 0 3

/-- `my` of a grid index `{my, mx}` (R113). -/
def indexMy (i : BitVec 6) : BitVec 3 :=
  i.extractLsb' 3 3

/-- `{my[2:0], mx[2:0]}` (R39, R50). -/
def cellIndex (mx my : BitVec 3) : BitVec 6 :=
  my ++ mx

/-- The height field of a column result, `RESULT[6:0]` (R26). -/
def heightField (r : Byte) : BitVec 7 :=
  r.extractLsb' 0 7

/-- The axis flag of a column result, `RESULT[7]`: 0 for X, 1 for Y (R26). -/
def axisFlag (r : Byte) : Bool :=
  r.getLsbD 7

/-- A cell as a byte: wall 1, floor 0 (R113). -/
def cellByte : GridCell → Byte
  | .floor => 0
  | .wall => 1

/-- `MemRead(DIRROM, a)` (R52). -/
def readDir (c : Cfg) (a : BitVec 6) : Direction :=
  c.dir[a.toNat]'a.isLt

/-- `MemRead(RECROM, m)` (R52). -/
def readRecip (c : Cfg) (m : Byte) : Byte :=
  c.recip[m.toNat]'m.isLt

/-- `MemRead(HGTROM, d)` (R52). -/
def readHeight (c : Cfg) (d : Byte) : Byte :=
  c.height[d.toNat]'d.isLt

/-- `MemRead(GRIDROM, mx, my)` (R52). -/
def readGrid (c : Cfg) (mx my : BitVec 3) : GridCell :=
  (c.grid[my.toNat]'my.isLt)[mx.toNat]'mx.isLt

/-- The nineteen registers of the register space (R54). -/
inductive Reg where
  | posx | posy | angle | column | row | arg | result | cmd | status | fault
  | glyph | data0 | data1 | rayx | rayy | perp | side | hitcell | steps
  deriving DecidableEq, Repr

/-- The address of a register (R54). -/
def Reg.addr : Reg → RegAddr
  | .posx => 0x00
  | .posy => 0x01
  | .angle => 0x02
  | .column => 0x03
  | .row => 0x04
  | .arg => 0x05
  | .result => 0x06
  | .cmd => 0x07
  | .status => 0x08
  | .fault => 0x09
  | .glyph => 0x0A
  | .data0 => 0x0B
  | .data1 => 0x0C
  | .rayx => 0x0D
  | .rayy => 0x0E
  | .perp => 0x0F
  | .side => 0x10
  | .hitcell => 0x11
  | .steps => 0x12

/-- The register at an address, or none at a reserved one (R54, R58). -/
def regAt (a : RegAddr) : Option Reg :=
  match a.toNat with
  | 0x00 => some .posx
  | 0x01 => some .posy
  | 0x02 => some .angle
  | 0x03 => some .column
  | 0x04 => some .row
  | 0x05 => some .arg
  | 0x06 => some .result
  | 0x07 => some .cmd
  | 0x08 => some .status
  | 0x09 => some .fault
  | 0x0A => some .glyph
  | 0x0B => some .data0
  | 0x0C => some .data1
  | 0x0D => some .rayx
  | 0x0E => some .rayy
  | 0x0F => some .perp
  | 0x10 => some .side
  | 0x11 => some .hitcell
  | 0x12 => some .steps
  | _ => none

/-- The three access classes (R55). -/
inductive Access where
  | rw
  | ro
  | wo
  deriving DecidableEq, Repr

/-- The access class of a register (R54). -/
def Reg.access : Reg → Access
  | .posx => .rw
  | .posy => .rw
  | .angle => .rw
  | .column => .rw
  | .row => .rw
  | .arg => .rw
  | .result => .rw
  | .cmd => .wo
  | .status => .ro
  | .fault => .ro
  | .glyph => .ro
  | .data0 => .ro
  | .data1 => .ro
  | .rayx => .ro
  | .rayy => .ro
  | .perp => .ro
  | .side => .ro
  | .hitcell => .ro
  | .steps => .ro

/-- How many low bits of a register are kept by a write and shown by a read (R54). -/
def Reg.width : Reg → Nat
  | .posx => 8
  | .posy => 8
  | .angle => 6
  | .column => 6
  | .row => 4
  | .arg => 8
  | .result => 8
  | .cmd => 8
  | .status => 3
  | .fault => 4
  | .glyph => 2
  | .data0 => 8
  | .data1 => 8
  | .rayx => 8
  | .rayy => 8
  | .perp => 8
  | .side => 8
  | .hitcell => 6
  | .steps => 4

/-- A register's value as a host reads it, zero-extended to a byte; CMD reads as 0 (R56). -/
def State.readReg (s : State) : Reg → Byte
  | .posx => s.posx
  | .posy => s.posy
  | .angle => s.angle.setWidth 8
  | .column => s.column.setWidth 8
  | .row => s.row.setWidth 8
  | .arg => s.arg
  | .result => s.result
  | .cmd => 0
  | .status => s.status
  | .fault => s.faultByte
  | .glyph => s.glyph.setWidth 8
  | .data0 => s.data0
  | .data1 => s.data1
  | .rayx => s.rayx
  | .rayy => s.rayy
  | .perp => s.perp
  | .side => s.side
  | .hitcell => s.hitcell.setWidth 8
  | .steps => s.steps.setWidth 8

end Sys2Proof.Machine
end

