-- ==== Sys2Proof/Machine/Ops.lean ====
section
/-! DEFINITION. The shared operations: entering a fault and leaving it by reset (spec/60_exceptions.md R204, R206;
spec/70_reset_and_hazards.md R230), how a command ends (spec/10_state.md R31), and the host's transactions
(spec/20_memory.md R56, R57; spec/10_state.md R32). -/

namespace Sys2Proof.Machine

/-- The code FAULT shows for a cause (R200). -/
def FaultCode.code : FaultCode → BitVec 4
  | .illCmd => 1
  | .busyWr => 2
  | .recipZ => 3
  | .gridRng => 4
  | .sideOvf => 5
  | .hgtRng => 6
  | .stripRng => 7

/-- `raise Fault(code)`: the one fault entry. It writes `fcode`, `phase` and `done`, and nothing else (R204, R205). -/
def State.raiseFault (s : State) (c : FaultCode) : State :=
  { s with fcode := c.code, phase := .faulted, done := false }

/-- The environment's reset, the only way out of a fault: every register at its reset value, the configuration kept (R206, R230,
R231). The events still to come and what the host has read are the environment's and stay (log 9). -/
def State.resetEvent (s : State) : State :=
  { State.resetWith s.cfg with inputs := s.inputs, reads := s.reads }

/-- The end of a command that raised no fault (R31). -/
def State.completed (s : State) : State :=
  { s with phase := .idle, done := true }

/-- One `complete` step from `s`: either all of the command's writes happen, given as the state `t`, or a fault is raised and none
do (R31). -/
def perform (s : State) (r : Except FaultCode State) : Host.Outcome State Fault Refusal :=
  .next (match r with
    | .ok t => t.completed
    | .error c => s.raiseFault c)

/-- The accept event while idle (R32, R201). -/
def State.accept (s : State) (v : Byte) : State :=
  match decode v with
  | .command _ => { s with pend := v, done := false, phase := .busy }
  | .reserved => s.raiseFault .illCmd

/-- `HostRead(addr)`: a reserved address reads as 0 (R56, R58). -/
def State.hostRead (s : State) (a : RegAddr) : Byte :=
  match regAt a with
  | some r => s.readReg r
  | none => 0

/-- A write to a register while idle; read-only registers and CMD's accept included (R57). -/
def State.writeReg (s : State) (r : Reg) (v : Byte) : State :=
  match r with
  | .posx => { s with posx := v }
  | .posy => { s with posy := v }
  | .angle => { s with angle := v.setWidth 6 }
  | .column => { s with column := v.setWidth 6 }
  | .row => { s with row := v.setWidth 4 }
  | .arg => { s with arg := v }
  | .result => { s with result := v }
  | .cmd => s.accept v
  | .status => s
  | .fault => s
  | .glyph => s
  | .data0 => s
  | .data1 => s
  | .rayx => s
  | .rayy => s
  | .perp => s
  | .side => s
  | .hitcell => s
  | .steps => s

/-- `HostWrite(addr, v)`: its effect depends on the phase first, then on the address (R57, R202, R206). -/
def State.hostWrite (s : State) (a : RegAddr) (v : Byte) : State :=
  match s.phase with
  | .faulted => s
  | .busy => s.raiseFault .busyWr
  | .idle =>
    match regAt a with
    | some r => s.writeReg r v
    | none => s

/-- The host's record of a byte it has read (log 3). -/
def State.logRead (s : State) (v : Byte) : State :=
  { s with reads := s.reads ++ [v] }

/-- Put events in front of those still to come. -/
def State.pushInputs (s : State) (es : List Event) : State :=
  { s with inputs := es ++ s.inputs }

/-- What is left of the host's WAIT loop after a read that found the engine in a phase: nothing once BUSY is clear; else another
round, the engine getting its turn when `more` is used up, so that the loop ends (spec/30_encoding.md R89, R240; log 9). -/
def pollRest : Phase → Nat → List Event
  | .idle, _ => []
  | .faulted, _ => []
  | .busy, 0 => [.engine, .poll 0]
  | .busy, n + 1 => [.poll n]

/-- One round of the host's WAIT loop: read STATUS, and go round again if BUSY is set (R89). -/
def State.pollOnce (s : State) (more : Nat) : State :=
  (s.logRead s.status).pushInputs (pollRest s.phase more)

/-- The event that happens next: the first one listed, and the engine's turn when none is (log 2). -/
def State.nextEvent (s : State) : Event :=
  s.inputs.headD .engine

/-- The state with that event taken off the list. -/
def State.dropEvent (s : State) : State :=
  { s with inputs := s.inputs.tail }

end Sys2Proof.Machine
end

