-- ==== Sys2Proof/Machine/Probe.lean ====
section
/-! DEFINITION. The probe commands LDDIR, LDREC, LDHGT, LDCELL (spec/40_lookup_tables.md R110 to R113). -/

namespace Sys2Proof.Machine

/-- LDDIR: both components of a direction, as bytes (R110). -/
def execLddir (s : State) : Host.Outcome State Fault Refusal :=
  perform s (.ok { s with
    data0 := (readDir s.cfg (argIndex s.arg)).dx
    data1 := (readDir s.cfg (argIndex s.arg)).dy })

/-- LDREC: a reciprocal entry; entry 0 is no fault here (R111). -/
def execLdrec (s : State) : Host.Outcome State Fault Refusal :=
  perform s (.ok { s with data0 := readRecip s.cfg s.arg, data1 := 0 })

/-- LDHGT: all eight bits of a height entry (R112). -/
def execLdhgt (s : State) : Host.Outcome State Fault Refusal :=
  perform s (.ok { s with data0 := readHeight s.cfg s.arg, data1 := 0 })

/-- LDCELL: the cell at `ARG[5:0] = {my, mx}` (R113). -/
def execLdcell (s : State) : Host.Outcome State Fault Refusal :=
  perform s (.ok { s with
    data0 := cellByte (readGrid s.cfg (indexMx (argIndex s.arg)) (indexMy (argIndex s.arg)))
    data1 := 0 })

end Sys2Proof.Machine
end

