-- ==== Sys2Proof/Machine/Raycast.lean ====
section
/-! DEFINITION. The cast: CAST and CASTI (spec/42_raycast.md). The types hold the transient values of one cast (spec/10_state.md
R33); none of them outlives the `complete` step. -/

namespace Sys2Proof.Machine

/-- The two axes (R8). -/
inductive Axis where
  | x
  | y
  deriving DecidableEq, Repr

/-- A step direction: +1 or -1 (R156). -/
inductive StepDir where
  | plus
  | minus
  deriving DecidableEq, Repr

/-- A ray direction, two signed bytes. -/
structure Ray where
  x : Byte
  y : Byte
  deriving DecidableEq, Repr

/-- What an active axis carries. An inactive axis has no delta, step or side (R33, R154), so it carries no such record. -/
structure AxisRun where
  delta : Byte
  step : StepDir
  side : Byte
  deriving DecidableEq, Repr

/-- The mode with the active axes' values: `XONLY`, `YONLY` or `BOTH` (R154). -/
inductive Active where
  | xOnly (x : AxisRun)
  | yOnly (y : AxisRun)
  | both (x y : AxisRun)
  deriving DecidableEq, Repr

/-- The state of the walk between two of its steps (R159). Both cell indices are set in every mode (R157). -/
structure Walk where
  mapX : BitVec 3
  mapY : BitVec 3
  active : Active
  steps : BitVec 4
  deriving DecidableEq, Repr

/-- What the walk leaves at the wall: the cell, the axis last advanced with its side distance and delta, and the step count. -/
structure WalkEnd where
  mapX : BitVec 3
  mapY : BitVec 3
  last : Axis
  side : Byte
  delta : Byte
  steps : BitVec 4
  deriving DecidableEq, Repr

/-- How one step of the walk ends (R162). -/
inductive WalkStep where
  | hit (e : WalkEnd)
  | goOn (w : Walk)
  | fails (c : FaultCode)
  deriving DecidableEq, Repr

/-- The seven values a successful cast commits (R150, R167). -/
structure CastOut where
  result : Byte
  rayx : Byte
  rayy : Byte
  perp : Byte
  side : Byte
  hitcell : BitVec 6
  steps : BitVec 4
  deriving DecidableEq, Repr

/-! ### Stage 1: ray generation -/

/-- `k = 2*COLUMN - 64` (R152). -/
def columnFactor (column : BitVec 6) : Byte :=
  BitVec.ofInt 8 (2 * (column.toNat : Int) - 64)

/-- The ray of a column: the direction plus the camera plane `(dy, -dx)` scaled by the column factor (R151, R152, R153). -/
def rayGen (c : Cfg) (angle column : BitVec 6) : Ray :=
  let d := readDir c angle
  let k := columnFactor column
  { x := narrowSum d.dx (div64 (mul8x8 d.dy k))
    y := narrowSum d.dy (div64 (mul8x8 (neg8 d.dx) k)) }

/-! ### Stages 2 and 3: dispatch and setup -/

/-- `sign` of a nonzero component (R156). -/
def stepOf (r : Byte) : StepDir :=
  if 0 < r.toInt then .plus else .minus

/-- The distance in sub-units to the edge the ray will cross (R158). -/
def edgeOf (p : Byte) (d : StepDir) : Nat :=
  match d with
  | .plus => Config.cellUnits - (offOf p).toNat
  | .minus => (offOf p).toNat

/-- Delta, step and initial side distance of an active axis (R155, R156, R158). -/
def axisRun (c : Cfg) (r p : Byte) : AxisRun :=
  let delta := readRecip c (abs8 r)
  { delta := delta, step := stepOf r, side := scale32 (edgeOf p (stepOf r)) delta }

/-- Dispatch and setup of the axes: the ray (0, 0) faults before any table is read (R154, R155). -/
def dispatch (c : Cfg) (ray : Ray) (posx posy : Byte) : Except FaultCode Active :=
  if ray.x = 0 ∧ ray.y = 0 then .error .recipZ
  else if ray.x = 0 then .ok (.yOnly (axisRun c ray.y posy))
  else if ray.y = 0 then .ok (.xOnly (axisRun c ray.x posx))
  else .ok (.both (axisRun c ray.x posx) (axisRun c ray.y posy))

/-- The walk before its first step, from the cell of the position (R157). -/
def setup (posx posy : Byte) (a : Active) : Walk :=
  { mapX := cellOf posx, mapY := cellOf posy, active := a, steps := 0 }

/-! ### Stage 4: the walk -/

/-- The axis the next step advances: with both active the one of smaller side distance, ties going to Y (R159). -/
def Active.choice : Active → Axis
  | .xOnly _ => .x
  | .yOnly _ => .y
  | .both x y => if lt8 x.side y.side then .x else .y

/-- The values of the axis the next step advances. -/
def Active.chosen : Active → AxisRun
  | .xOnly x => x
  | .yOnly y => y
  | .both x y => if lt8 x.side y.side then x else y

/-- One accumulation on an axis (R160). -/
def AxisRun.accumulate (r : AxisRun) : AxisRun :=
  { r with side := (add8 r.side r.delta).1 }

/-- The accumulation on the chosen axis; the other's side distance does not change (R160). -/
def Active.accumulate : Active → Active
  | .xOnly x => .xOnly x.accumulate
  | .yOnly y => .yOnly y.accumulate
  | .both x y => if lt8 x.side y.side then .both x.accumulate y else .both x y.accumulate

/-- The cell index one further on, or none outside 0 to 7: it never wraps (R161). -/
def advance (m : BitVec 3) : StepDir → Option (BitVec 3)
  | .plus => if m.toNat + 1 ≤ 7 then some (BitVec.ofNat 3 (m.toNat + 1)) else none
  | .minus => if 1 ≤ m.toNat then some (BitVec.ofNat 3 (m.toNat - 1)) else none

/-- The cell index of an axis. -/
def Walk.map (w : Walk) : Axis → BitVec 3
  | .x => w.mapX
  | .y => w.mapY

/-- Advance, record and accumulate: the walk after a step to cell index `m` of the chosen axis (R160, R161, R163). -/
def Walk.moved (w : Walk) (m : BitVec 3) : Walk :=
  { mapX := if w.active.choice = .x then m else w.mapX
    mapY := if w.active.choice = .y then m else w.mapY
    active := w.active.accumulate
    steps := w.steps + 1 }

/-- What the walk leaves if it stops after that step. -/
def Walk.ended (w : Walk) (m : BitVec 3) : WalkEnd :=
  let t := w.moved m
  { mapX := t.mapX, mapY := t.mapY, last := w.active.choice
    side := w.active.chosen.accumulate.side, delta := w.active.chosen.delta, steps := t.steps }

/-- One step of the walk: range check, sample, then the carry rule (R159 to R163, in the order of spec/60_exceptions.md R203). -/
def Walk.step (c : Cfg) (w : Walk) : WalkStep :=
  match advance (w.map w.active.choice) w.active.chosen.step with
  | none => .fails .gridRng
  | some m =>
    let t := w.moved m
    match readGrid c t.mapX t.mapY with
    | .wall => .hit (w.ended m)
    | .floor => if carryOut w.active.chosen.side w.active.chosen.delta then .fails .sideOvf else .goOn t

/-- The walk. The loop has no iteration bound in the spec and ends within fifteen attempts by itself (R168); `fuel` only makes the
recursion structural, and its exhaustion is never reached from fifteen on (log 6). -/
def walk (c : Cfg) : Nat → Walk → Except FaultCode WalkEnd
  | 0, _ => .error .gridRng
  | fuel + 1, w =>
    match w.step c with
    | .hit e => .ok e
    | .goOn t => walk c fuel t
    | .fails f => .error f

/-- Attempts after which every walk has ended (R168). -/
def walkFuel : Nat := 15

/-! ### Stages 5 and 6: correction and composition -/

/-- The perpendicular distance: one delta is taken back, the borrow dropped (R164). -/
def correct (side delta : Byte) : Byte :=
  (sub8 side delta).1

/-- The flag of the axis last advanced: 0 for X, 1 for Y (R26, R165). -/
def Axis.flag : Axis → BitVec 1
  | .x => 0
  | .y => 1

/-- The column result: height lookup, range check and pack (R165). -/
def compose (c : Cfg) (perp : Byte) (last : Axis) : Except FaultCode Byte :=
  let h := readHeight c perp
  if h.getLsbD 7 then .error .hgtRng else .ok (last.flag ++ h.extractLsb' 0 7)

/-- The whole cast of one column, up to its commit (R150). It reads nothing but its operands and the configuration (R37). -/
def castColumn (c : Cfg) (posx posy : Byte) (angle column : BitVec 6) : Except FaultCode CastOut := do
  let ray := rayGen c angle column
  let a ← dispatch c ray posx posy
  let e ← walk c walkFuel (setup posx posy a)
  let perp := correct e.side e.delta
  let result ← compose c perp e.last
  return { result := result, rayx := ray.x, rayy := ray.y, perp := perp, side := e.side,
           hitcell := cellIndex e.mapX e.mapY, steps := e.steps }

/-- The commit: the seven registers together (R167). -/
def State.commitCast (s : State) (o : CastOut) : State :=
  { s with result := o.result, rayx := o.rayx, rayy := o.rayy, perp := o.perp, side := o.side,
           hitcell := o.hitcell, steps := o.steps }

/-- CAST: the column in COLUMN (R150). -/
def execCast (s : State) : Host.Outcome State Fault Refusal :=
  perform s ((castColumn s.cfg s.posx s.posy s.angle s.column).map s.commitCast)

/-- CASTI c: the column in the immediate, which the commit also writes to COLUMN (R166). -/
def execCasti (c : BitVec 6) (s : State) : Host.Outcome State Fault Refusal :=
  perform s ((castColumn s.cfg s.posx s.posy s.angle c).map fun o => { s.commitCast o with column := c })

end Sys2Proof.Machine
end

