-- ==== Sys2Proof/Machine/Small.lean ====
section
/-! DEFINITION. NOP, ROT, ADDX, ADDY (spec/41_arithmetic.md R134 to R137). -/

namespace Sys2Proof.Machine

/-- NOP: nothing but its completion (R134). -/
def execNop (s : State) : Host.Outcome State Fault Refusal :=
  perform s (.ok s)

/-- ROT: the angle advances by one modulo 64, through the adder's low six bits (R135). -/
def execRot (s : State) : Host.Outcome State Fault Refusal :=
  perform s (.ok { s with angle := (add8 (s.angle.setWidth 8) 1).1.setWidth 6 })

/-- ADDX: `POSX <- ADD8(POSX, ARG).sum`, the carry dropped (R136). -/
def execAddx (s : State) : Host.Outcome State Fault Refusal :=
  perform s (.ok { s with posx := (add8 s.posx s.arg).1 })

/-- ADDY: `POSY <- ADD8(POSY, ARG).sum`, the carry dropped (R137). -/
def execAddy (s : State) : Host.Outcome State Fault Refusal :=
  perform s (.ok { s with posy := (add8 s.posy s.arg).1 })

end Sys2Proof.Machine
end

