-- ==== Sys2Proof/Machine/Strip.lean ====
section
/-! DEFINITION. STRIP (spec/43_strip.md R190 to R194). -/

namespace Sys2Proof.Machine

/-- Half of the strip's height in rows: a third of the height field (R191). -/
def halfExtent (r : Byte) : Nat :=
  (div3 (heightField r)).toNat

/-- The glyph class of the axis: 1 for X, 2 for Y (R193). -/
def axisGlyph (r : Byte) : BitVec 2 :=
  if axisFlag r then 2 else 1

/-- The glyph class of a row: the axis's inside `[8 - half, 8 + half)`, blank outside; a strip that would start above the screen
faults (R190, R192). -/
def stripGlyph (r : Byte) (row : BitVec 4) : Except FaultCode (BitVec 2) :=
  if Config.centreRow < halfExtent r then
    .error .stripRng
  else if Config.centreRow - halfExtent r ≤ row.toNat ∧ row.toNat < Config.centreRow + halfExtent r then
    .ok (axisGlyph r)
  else
    .ok 0

/-- STRIP: the glyph class of `ROW` in the column `RESULT` (R190). -/
def execStrip (s : State) : Host.Outcome State Fault Refusal :=
  perform s ((stripGlyph s.result s.row).map fun g => { s with glyph := g })

end Sys2Proof.Machine
end

