-- ==== Sys2Proof/Machine/Dispatch.lean ====
section
/-! DEFINITION. The meaning of each command: one arm per constructor. -/

namespace Sys2Proof.Machine

def exec (i : Instr) (s : State) : Host.Outcome State Fault Refusal :=
  match i with
  | .nop => Sys2Proof.Machine.execNop s
  | .cast => Sys2Proof.Machine.execCast s
  | .strip => Sys2Proof.Machine.execStrip s
  | .rot => Sys2Proof.Machine.execRot s
  | .lddir => Sys2Proof.Machine.execLddir s
  | .ldrec => Sys2Proof.Machine.execLdrec s
  | .ldhgt => Sys2Proof.Machine.execLdhgt s
  | .ldcell => Sys2Proof.Machine.execLdcell s
  | .addx => Sys2Proof.Machine.execAddx s
  | .addy => Sys2Proof.Machine.execAddy s
  | .casti c => Sys2Proof.Machine.execCasti c s

end Sys2Proof.Machine
end

