-- ==== Sys2Proof/Machine/Engine.lean ====
section
/-! DEFINITION. The engine's step `complete` (spec/10_state.md R31) and what each event does (spec/00_scope.md R7). -/

namespace Sys2Proof.Machine

/-- The engine's turn. Busy, it decodes `pend` and performs that command's rule; otherwise it has no step and nothing changes (R31,
R37; log 4). A reserved byte is never pending in a run (log 7). -/
def complete (s : State) : Host.Outcome State Fault Refusal :=
  match s.phase with
  | .idle => .next s
  | .faulted => .next s
  | .busy =>
    match decode s.pend with
    | .command i => exec i s
    | .reserved => .fault .reservedPending

/-- What an event does to a state from whose list it has been taken. -/
def takeEvent (e : Event) (s : State) : Host.Outcome State Fault Refusal :=
  match e with
  | .engine => complete s
  | .read a => .next (s.logRead (s.hostRead a))
  | .write a v => .next (s.hostWrite a v)
  | .reset => .next s.resetEvent
  | .poll more => .next (s.pollOnce more)

/-- A command byte about to be performed: accepted, with the engine's turn next. It stands for the host's write of the byte to CMD
(R32; log 4). -/
def State.withPending (s : State) (v : Byte) : State :=
  { s with pend := v, done := false, phase := .busy, inputs := .engine :: s.inputs }

end Sys2Proof.Machine
end

