-- ==== Sys2Proof/Machine/Step.lean ====
section
/-! DEFINITION. One step of the machine: the next event of the total order in which the host, the engine and the reset act
(spec/20_memory.md R63). -/

namespace Sys2Proof.Machine

/-- Take the next event off the list and let it act. -/
def step (s : State) : Host.Outcome State Fault Refusal :=
  takeEvent s.nextEvent s.dropEvent

/-- `s` with the command of a table word accepted and the engine's turn next, so that the very next step performs it. -/
def State.withFetchWord (s : State) (nbits w : Nat) : State :=
  s.withPending (tableByte nbits w)

end Sys2Proof.Machine
end

