-- ==== Sys2Proof/Machine/RomReads.lean ====
section
/-! DEFINITION. How often a command reads each ROM space (spec/20_memory.md R66). The reads have no side effect, so the counts are a
view beside the machine and no state (log 11). -/

namespace Sys2Proof.Machine

/-- Numbers of reads of the four ROM spaces (R50). -/
structure RomReads where
  dirrom : Nat
  recrom : Nat
  gridrom : Nat
  hgtrom : Nat
  deriving DecidableEq, Repr

/-- Reciprocal lookups of a setup: one per active axis (R155). -/
def Active.recipReads : Active → Nat
  | .xOnly _ => 1
  | .yOnly _ => 1
  | .both _ _ => 2

/-- Cells a walk samples: one per step that passes its range check (R161, R162). -/
def walkSamples (c : Cfg) : Nat → Walk → Nat
  | 0, _ => 0
  | fuel + 1, w =>
    match w.step c with
    | .hit _ => 1
    | .goOn t => 1 + walkSamples c fuel t
    | .fails .gridRng => 0
    | .fails _ => 1

/-- The reads of a cast, counted up to the fault if one is raised (R66). -/
def castReads (c : Cfg) (posx posy : Byte) (angle column : BitVec 6) : RomReads :=
  match dispatch c (rayGen c angle column) posx posy with
  | .error _ => { dirrom := 1, recrom := 0, gridrom := 0, hgtrom := 0 }
  | .ok a =>
    { dirrom := 1
      recrom := a.recipReads
      gridrom := walkSamples c walkFuel (setup posx posy a)
      hgtrom := match walk c walkFuel (setup posx posy a) with
        | .ok _ => 1
        | .error _ => 0 }

/-- The reads of a command performed in a state (R66). -/
def romReads (i : Instr) (s : State) : RomReads :=
  match i with
  | .nop => ⟨0, 0, 0, 0⟩
  | .cast => castReads s.cfg s.posx s.posy s.angle s.column
  | .strip => ⟨0, 0, 0, 0⟩
  | .rot => ⟨0, 0, 0, 0⟩
  | .lddir => ⟨1, 0, 0, 0⟩
  | .ldrec => ⟨0, 1, 0, 0⟩
  | .ldhgt => ⟨0, 0, 0, 1⟩
  | .ldcell => ⟨0, 0, 1, 0⟩
  | .addx => ⟨0, 0, 0, 0⟩
  | .addy => ⟨0, 0, 0, 0⟩
  | .casti c => castReads s.cfg s.posx s.posy s.angle c

end Sys2Proof.Machine
end

