-- ==== Sys2Proof/Machine/Script.lean ====
section
/-! DEFINITION. Host scripts (spec/30_encoding.md R88, R89): each line as the events it stands for. Where the engine's turn falls
among them is open in the spec and an argument here, in a WAIT (log 9) and between lines (log 15). -/

namespace Sys2Proof.Machine

/-- A line of a host script. A WAIT carries how many of its reads find the engine still busy, a number the spec does not fix (R89,
R240); SWEEP and FRAME carry that number for each of their WAITs in order, 0 where the list is too short. -/
inductive ScriptLine where
  | wr (r : Reg) (n : Byte)
  | rd (r : Reg)
  | command (i : Instr)
  | reset
  | comment (text : String)
  | wait (busyReads : Nat)
  | setpos (x y : Byte)
  | sweep (busyReads : List Nat)
  | frame (busyReads : List Nat)
  deriving DecidableEq, Repr

/-- `WR <reg>, <n>`: one write (R88). -/
def eventsOfWrite (r : Reg) (n : Byte) : List Event :=
  [.write r.addr n]

/-- A command line: a write of its byte to CMD (R88). -/
def eventsOfCommand (i : Instr) : List Event :=
  eventsOfWrite .cmd (encode i)

/-- `WAIT` with a given number of reads that find the engine busy (R89). With none, the engine's turn comes before the first read. -/
def eventsOfWait : Nat → List Event
  | 0 => [.engine, .poll 0]
  | n + 1 => [.poll n]

/-- One column of a SWEEP: `CASTI c; WAIT; RD RESULT` (R89). -/
def eventsOfColumn (busyReads : List Nat) (c : Nat) : List Event :=
  eventsOfCommand (.casti (BitVec.ofNat 6 c)) ++ eventsOfWait (busyReads.getD c 0) ++ [.read Reg.result.addr]

/-- `SWEEP`: the columns 0 to 63 in order (R89). -/
def eventsOfSweep (busyReads : List Nat) : List Event :=
  (List.range 64).flatMap (eventsOfColumn busyReads)

/-- The events of a script line (R88, R89). -/
def ScriptLine.events : ScriptLine → List Event
  | .wr r n => eventsOfWrite r n
  | .rd r => [.read r.addr]
  | .command i => eventsOfCommand i
  | .reset => [.reset]
  | .comment _ => []
  | .wait n => eventsOfWait n
  | .setpos x y => eventsOfWrite .posx x ++ eventsOfWrite .posy y
  | .sweep ns => eventsOfSweep ns
  | .frame ns => eventsOfSweep ns ++ eventsOfCommand .rot ++ eventsOfWait (ns.getD 64 0)

/-- The engine's turn, if it comes at this point of a script. -/
def eventsOfTurn (comes : Bool) : List Event :=
  if comes then [.engine] else []

/-- The events of a script. DESIGN CHOICE (log 15): the spec leaves open where `complete` falls among the host's transactions (R31,
R240, V5), outside a WAIT too: script P5 of spec/95_test_vectors.md has two runs. So `turns` says before which lines the engine has
its turn, line by line, and where `turns` is too short it has none there. Without turns this is P5's run (a), and a turn before the
line after the command is its run (b). A claim about a script is one for every `turns`. -/
def scriptEvents : List Bool → List ScriptLine → List Event
  | _, [] => []
  | turns, l :: ls => eventsOfTurn (turns.headD false) ++ l.events ++ scriptEvents turns.tail ls

/-- A state about to run a script, the engine's turns outside its WAITs given (log 2, 15). -/
def State.withScript (s : State) (turns : List Bool) (ls : List ScriptLine) : State :=
  { s with inputs := scriptEvents turns ls }

/-- The bus traffic a script line prints as: kind, address and data (R88). -/
inductive Traffic where
  | w (addr : RegAddr) (data : Byte)
  | r (addr : RegAddr)
  deriving DecidableEq, Repr

/-- The traffic of an event, none for the engine's turn and the reset; a poll round is a read of STATUS (R88, R89). -/
def Event.traffic : Event → Option Traffic
  | .engine => none
  | .read a => some (.r a)
  | .write a v => some (.w a v)
  | .reset => none
  | .poll _ => some (.r Reg.status.addr)

end Sys2Proof.Machine
end

