-- ==== Sys2Proof/Safety.lean ====
section
/-! DEFINITION. The terms claims are stated in: the invariant of the sequencer, which registers a command writes, runs of the machine,
and the cast read over the integers, with accumulators that have no width and a loop that has no bound. -/

namespace Sys2Proof.Machine

/-- What every reachable state satisfies. -/
structure State.Inv (s : State) : Prop where
  /-- `FAULT[3:0] != 0` iff faulted (spec/10_state.md R29). -/
  fault_iff : s.phase = .faulted ↔ s.fcode ≠ 0
  /-- Codes 8 to 15 are never written (spec/60_exceptions.md R200). -/
  fcode_le : s.fcode.toNat ≤ 7
  /-- DONE is shown only by an idle engine (R28). -/
  done_idle : s.done = true → s.phase = .idle
  /-- Only defined commands are accepted (R32). -/
  pending : s.phase = .busy → decode s.pend ≠ .reserved
  /-- Glyph class 3 never occurs (R38). -/
  glyph_ne : s.glyph ≠ 3
  /-- At most fourteen steps (spec/42_raycast.md R168). -/
  steps_le : s.steps.toNat ≤ 14

/-- A claim that a script computed something takes this as a premise (spec/60_exceptions.md R206): `STATUS[2] = 0`. -/
def State.Ok (s : State) : Prop :=
  s.status.getLsbD 2 = false

/-- `n` steps of the machine. -/
def run : Nat → State → Host.Outcome State Fault Refusal
  | 0, s => .next s
  | n + 1, s =>
    match step s with
    | .next t => run n t
    | .fault f => .fault f
    | .refused r => .refused r

/-- The glyph class STRIP answers for a row of the column in RESULT, none if it faults (spec/43_strip.md R190). -/
def State.stripAt (s : State) (row : Nat) : Option Nat :=
  match exec .strip { s with row := BitVec.ofNat 4 row } with
  | .next t => if t.phase = .idle then some t.glyph.toNat else none
  | .fault _ => none
  | .refused _ => none

/-! ### The cast over the integers (spec/42_raycast.md R151 to R168, spec/90_conflicts.md C5)

Side distances are natural numbers, cell indices are integers, and the loop is an inductive relation, so nothing here depends on the
widths, the adder or the fuel of Machine/Raycast.lean. -/

/-- The ray of a column (R151 to R153): the product and the sum are exact, and each component is narrowed once. -/
def intRay (c : Cfg) (angle column : BitVec 6) : Int × Int :=
  let dx := (c.dir[angle.toNat]'angle.isLt).dx.toInt
  let dy := (c.dir[angle.toNat]'angle.isLt).dy.toInt
  let k : Int := 2 * (column.toNat : Int) - 64
  (Int.bmod (dx + (dy * k).tdiv 64) 256, Int.bmod (dy + (Int.bmod (-dx) 256 * k).tdiv 64) 256)

/-- An active axis over the integers. -/
structure IntAxis where
  delta : Nat
  dir : Int
  side : Nat
  deriving DecidableEq, Repr

/-- The walk over the integers; an inactive axis is `none`. -/
structure IntWalk where
  mx : Int
  my : Int
  x : Option IntAxis
  y : Option IntAxis
  deriving DecidableEq, Repr

/-- The wall a walk reaches. -/
structure IntEnd where
  mx : Int
  my : Int
  lastY : Bool
  side : Nat
  delta : Nat
  steps : Nat
  deriving DecidableEq, Repr

/-- Perpendicular distance: the last side distance less one delta (R164). -/
def IntEnd.perp (e : IntEnd) : Nat :=
  e.side - e.delta

/-- An axis's delta, step and initial side distance (R155, R156, R158), none if its component is 0 (R154). -/
def intAxis (c : Cfg) (r : Int) (p : Byte) : Option IntAxis :=
  if r = 0 then none
  else
    let delta := (c.recip[r.natAbs]?.getD 0).toNat
    let edge := if 0 < r then 32 - p.toNat % 32 else p.toNat % 32
    some { delta := delta, dir := r.sign, side := edge * delta / 32 }

/-- The walk before its first step (R157). -/
def intStart (c : Cfg) (posx posy : Byte) (angle column : BitVec 6) : IntWalk :=
  { mx := posx.toNat / 32, my := posy.toNat / 32
    x := intAxis c (intRay c angle column).1 posx
    y := intAxis c (intRay c angle column).2 posy }

/-- The cell at integer indices, none outside the grid. -/
def intCell (c : Cfg) (mx my : Int) : Option GridCell :=
  if 0 ≤ mx ∧ 0 ≤ my then (c.grid[my.toNat]?).bind fun (r : Vector GridCell 8) => r[mx.toNat]? else none

/-- Is X the axis the next step advances? With both active, only if its side distance is strictly smaller (R159). -/
def IntWalk.takesX (w : IntWalk) : Bool :=
  match w.x, w.y with
  | some a, some b => decide (a.side < b.side)
  | some _, none => true
  | none, _ => false

/-- The axis the next step advances. -/
def IntWalk.chosen (w : IntWalk) : Option IntAxis :=
  if w.takesX then w.x else w.y

/-- The walk after a step on the chosen axis `a` (R160, R161). -/
def IntWalk.moved (w : IntWalk) (a : IntAxis) : IntWalk :=
  if w.takesX then { w with mx := w.mx + a.dir, x := some { a with side := a.side + a.delta } }
  else { w with my := w.my + a.dir, y := some { a with side := a.side + a.delta } }

/-- The cell entered by that step. -/
def IntWalk.entered (c : Cfg) (w : IntWalk) (a : IntAxis) : Option GridCell :=
  intCell c (w.moved a).mx (w.moved a).my

/-- The walk reaches a wall, no sum before its last having left eight bits (R159 to R163). -/
inductive IntWalk.Ends (c : Cfg) : IntWalk → IntEnd → Prop where
  | hit (w : IntWalk) (a : IntAxis) : w.chosen = some a → w.entered c a = some .wall →
      IntWalk.Ends c w
        { mx := (w.moved a).mx, my := (w.moved a).my, lastY := !w.takesX, side := a.side + a.delta, delta := a.delta,
          steps := 1 }
  | goOn (w : IntWalk) (a : IntAxis) (e : IntEnd) : w.chosen = some a → w.entered c a = some .floor →
      a.side + a.delta < 256 → IntWalk.Ends c (w.moved a) e → IntWalk.Ends c w { e with steps := e.steps + 1 }

/-- The walk breaks off: it would leave the grid, or it would go on with a sum of more than eight bits (R161, R162). -/
inductive IntWalk.Fails (c : Cfg) : IntWalk → FaultCode → Prop where
  | leaves (w : IntWalk) (a : IntAxis) : w.chosen = some a → w.entered c a = none → IntWalk.Fails c w .gridRng
  | carries (w : IntWalk) (a : IntAxis) : w.chosen = some a → w.entered c a = some .floor → 256 ≤ a.side + a.delta →
      IntWalk.Fails c w .sideOvf
  | goOn (w : IntWalk) (a : IntAxis) (f : FaultCode) : w.chosen = some a → w.entered c a = some .floor →
      a.side + a.delta < 256 → IntWalk.Fails c (w.moved a) f → IntWalk.Fails c w f

/-- The state after a successful cast that ended at `e` with height `h` (R165, R167; R31 for `phase` and `done`). -/
def State.afterCast (s : State) (ray : Int × Int) (e : IntEnd) (h : Byte) : State :=
  { s with
    result := BitVec.ofNat 8 ((if e.lastY then 128 else 0) + h.toNat)
    rayx := BitVec.ofInt 8 ray.1
    rayy := BitVec.ofInt 8 ray.2
    perp := BitVec.ofNat 8 e.perp
    side := BitVec.ofNat 8 e.side
    hitcell := BitVec.ofInt 6 (8 * e.my + e.mx)
    steps := BitVec.ofNat 4 e.steps
    phase := .idle
    done := true }

end Sys2Proof.Machine

namespace Sys2Proof

/-- The registers a command writes at successful completion, besides `done` and `phase` (spec/30_encoding.md R85). -/
def Instr.writes : Instr → List Machine.Reg
  | .nop => []
  | .cast => [.result, .rayx, .rayy, .perp, .side, .hitcell, .steps]
  | .strip => [.glyph]
  | .rot => [.angle]
  | .lddir => [.data0, .data1]
  | .ldrec => [.data0, .data1]
  | .ldhgt => [.data0, .data1]
  | .ldcell => [.data0, .data1]
  | .addx => [.posx]
  | .addy => [.posy]
  | .casti _ => [.column, .result, .rayx, .rayy, .perp, .side, .hitcell, .steps]

end Sys2Proof
end

