-- ==== Sys2Proof/WellFormed.lean ====
section
/-! DEFINITION. Well-formedness of a configuration, clause by clause (spec/40_lookup_tables.md R101), and of a command. The machine
checks none of the configuration's clauses; a claim may assume them one by one. -/

namespace Sys2Proof

namespace Cfg

/-- `WF_DIR_BOUND`: no direction component exceeds 32 in magnitude. -/
abbrev WfDirBound (c : Cfg) : Prop :=
  ∀ a : Fin 64, (c.dir[a].dx.toInt.natAbs ≤ 32) ∧ (c.dir[a].dy.toInt.natAbs ≤ 32)

/-- `WF_DIR_NORM(tol)`: the squared length is within `tol` of 1024. -/
abbrev WfDirNorm (c : Cfg) (tol : Nat) : Prop :=
  ∀ a : Fin 64,
    (c.dir[a].dx.toInt * c.dir[a].dx.toInt + c.dir[a].dy.toInt * c.dir[a].dy.toInt - 1024).natAbs ≤ tol

/-- `WF_DIR_NONZERO`: no direction is (0, 0). -/
abbrev WfDirNonzero (c : Cfg) : Prop :=
  ∀ a : Fin 64, ¬(c.dir[a].dx = 0 ∧ c.dir[a].dy = 0)

/-- `WF_DIR_0`: direction 0 is (32, 0). -/
abbrev WfDir0 (c : Cfg) : Prop :=
  c.dir[0] = { dx := 32, dy := 0 }

/-- `WF_REC_0`: the sentinel. -/
abbrev WfRec0 (c : Cfg) : Prop :=
  c.recip[0] = 0

/-- `WF_REC_32`. -/
abbrev WfRec32 (c : Cfg) : Prop :=
  c.recip[32] = 8

/-- `WF_HGT_MONO`: heights never grow with the distance. -/
abbrev WfHgtMono (c : Cfg) : Prop :=
  ∀ d : Fin 255, c.height[d.val + 1].toNat ≤ c.height[d.val].toNat

/-- `WF_HGT_31`. -/
abbrev WfHgt31 (c : Cfg) : Prop :=
  c.height[31] = 8

/-- `WF_HGT_7BIT`: every height fits seven bits. -/
abbrev WfHgt7Bit (c : Cfg) : Prop :=
  ∀ d : Fin 256, c.height[d].toNat ≤ 127

/-- `WF_GRID_BORDER`: the outer ring is wall. -/
abbrev WfGridBorder (c : Cfg) : Prop :=
  ∀ mx my : Fin 8, mx.val = 0 ∨ mx.val = 7 ∨ my.val = 0 ∨ my.val = 7 → c.grid[my][mx] = .wall

/-- `WF_GRID_CORRIDOR`: the floor cells of scenario 1. -/
abbrev WfGridCorridor (c : Cfg) : Prop :=
  c.grid[4][3] = .floor ∧ c.grid[4][4] = .floor ∧ c.grid[4][5] = .floor ∧ c.grid[4][6] = .floor

/-- A position whose cell index lies strictly inside the border. -/
abbrev Interior (p : Byte) : Prop :=
  1 ≤ p.toNat / 32 ∧ p.toNat / 32 ≤ 6

/-- `WF_START`. -/
abbrev WfStart (c : Cfg) : Prop :=
  Interior c.startPosx ∧ Interior c.startPosy

/-- `WF(cfg)`: the conjunction of all clauses, for a tolerance the source does not give (spec/91_not_in_source.md N5). -/
abbrev Wf (c : Cfg) (tol : Nat) : Prop :=
  c.WfDirBound ∧ c.WfDirNorm tol ∧ c.WfDirNonzero ∧ c.WfDir0 ∧ c.WfRec0 ∧ c.WfRec32 ∧ c.WfHgtMono ∧ c.WfHgt31 ∧
    c.WfHgt7Bit ∧ c.WfGridBorder ∧ c.WfGridCorridor ∧ c.WfStart

end Cfg

/-- A command is well-formed when its column operand is a column of the screen, `W = 64` (spec/30_encoding.md R84). A six bit
immediate always is: see `Laws.WordShape`. -/
abbrev Instr.WellFormed : Instr → Prop
  | .nop => True
  | .cast => True
  | .strip => True
  | .rot => True
  | .lddir => True
  | .ldrec => True
  | .ldhgt => True
  | .ldcell => True
  | .addx => True
  | .addy => True
  | .casti c => c.toNat < 64

end Sys2Proof
end

