-- ==== Sys2Proof/Certificates/Slice0/Obligations.lean ====
section
/-! DEFINITION. The statements for the provers. Each docstring names the rule of spec/ it formalises. `s.inputs` are the events still
to come and `s.reads` what the host has read: both are the model's own fields (log 2, 3). Where a statement gives the whole next state
of a command that completes, that these two and `pend` (log 8) keep their values is the model's choice and no rule of the spec. -/

open Sys2Proof Sys2Proof.Machine

/-! ### Encoding -/

/-- R83: decoding a command's byte gives the command back, with every operand at every value, and a byte that decodes to a command is
that command's byte. -/
def Obligations.DecodeInvertsEncode : Prop :=
  (∀ i : Instr, decode (encode i) = .command i) ∧ ∀ (v : Byte) (i : Instr), decode v = .command i → encode i = v

/-- R83, R87: every byte belongs to exactly the row of spec/opcode_table.json that its command names, or to no row if it is
reserved. -/
def Obligations.DecodeAgreesWithOpcodeTable : Prop :=
  ∀ v : Byte,
    (∀ i : Instr, decode v = .command i → (opcodeTable.filter (·.covers v)).map OpRow.mnemonic = [i.mnemonic]) ∧
      (decode v = .reserved → opcodeTable.filter (·.covers v) = [])

/-- R83, R81, R82: bytes written out from the spec's table decode to the commands they stand for. -/
def Obligations.SpecBytesDecode : Prop :=
  decode 0b00000000 = .command .nop ∧ decode 0b00000001 = .command .cast ∧ decode 0b00000010 = .command .strip ∧
    decode 0b00000011 = .command .rot ∧ decode 0b00000100 = .command .lddir ∧ decode 0b00001001 = .command .addy ∧
    decode 0b01000000 = .command (.casti 0) ∧ decode 0b01100000 = .command (.casti 32) ∧
    decode 0b01111111 = .command (.casti 63) ∧ decode 0b00001010 = .reserved ∧ decode 0b10000001 = .reserved

/-- R86, R201: which bytes are reserved, and that writing any of them to CMD while idle faults at the write: the engine never becomes
busy, `pend` is not loaded, and nothing but the fault entry happens. -/
def Obligations.ReservedBytesFaultAtTheWrite : Prop :=
  (∀ v : Byte, decode v = .reserved ↔ (0x0A ≤ v.toNat ∧ v.toNat ≤ 0x3F) ∨ 0x80 ≤ v.toNat) ∧
    ∀ (s : State) (v : Byte), s.phase = .idle → decode v = .reserved →
      s.hostWrite 0x07 v = { s with fcode := 1, phase := .faulted, done := false }

/-- R84: the immediate is bits 5:0 as they stand, and zero-extended it is what COLUMN reads after a CASTI that completes. -/
def Obligations.CastiImmediateIsTheColumn : Prop :=
  (∀ c : BitVec 6, (encode (.casti c)).toNat = 0x40 + c.toNat ∧ (Instr.casti c).WellFormed) ∧
    ∀ (s t : State) (c : BitVec 6), exec (.casti c) s = .next t → t.phase = .idle → (t.hostRead 0x03).toNat = c.toNat

/-! ### The step and the sequencer -/

/-- R31: when the engine is busy with a defined command and it is its turn, a step performs that command, the event taken off the
list. `withFetchWord` sets a state up so. That turns are taken from a list is the model's choice (log 2, 4). -/
def Obligations.StepPerformsThePendingCommand : Prop :=
  (∀ (s : State) (i : Instr),
    s.phase = .busy → decode s.pend = .command i → s.nextEvent = .engine →
      step s = exec i { s with inputs := s.inputs.tail }) ∧
  ∀ (s : State) (w : Nat) (i : Instr), w < 256 → decodeTableWord 8 w = some i →
    step (s.withFetchWord 8 w) = exec i { s with pend := BitVec.ofNat 8 w, done := false, phase := .busy }

/-- R37: while idle or faulted the engine has no step: its turn, which the model gives it all the same (log 4), changes nothing. -/
def Obligations.EngineHasNoStepUnlessBusy : Prop :=
  ∀ s : State, s.phase ≠ .busy → s.nextEvent = .engine → step s = .next { s with inputs := s.inputs.tail }

/-- R32: what a write to CMD does, by phase and byte; that a command a write has broken off is never performed; and that such a write
is the only event a command starts at. -/
def Obligations.AcceptStartsCommands : Prop :=
  (∀ (s : State) (v : Byte),
    (s.phase = .idle → ∀ i, decode v = .command i →
      s.hostWrite 0x07 v = { s with pend := v, done := false, phase := .busy }) ∧
    (s.phase = .idle → decode v = .reserved →
      s.hostWrite 0x07 v = { s with fcode := 1, done := false, phase := .faulted }) ∧
    (s.phase = .busy →
      s.hostWrite 0x07 v = { s with fcode := 2, done := false, phase := .faulted } ∧
        complete (s.hostWrite 0x07 v) = .next (s.hostWrite 0x07 v)) ∧
    (s.phase = .faulted → s.hostWrite 0x07 v = s)) ∧
  ∀ s t : State, step s = .next t → s.phase ≠ .busy → t.phase = .busy →
    s.phase = .idle ∧ ∃ v i, s.nextEvent = .write 0x07 v ∧ decode v = .command i

/-- The invariant holds right after reset, whatever the configuration and the events to come (R36, R29, R28). -/
def Obligations.InvariantHoldsAfterReset : Prop :=
  State.reset.Inv ∧ ∀ s : State, s.resetEvent.Inv

/-- R28, R29, R32, R38, R168: every step, of any agent, keeps the invariant. -/
def Obligations.EveryStepKeepsTheInvariant : Prop :=
  ∀ s t : State, s.Inv → step s = .next t → t.Inv

/-- Under the invariant the model never stops. For a busy engine that is R31, every command being total; that a step exists also while
idle or faulted, where the spec gives the engine none (R37), is the model's choice (log 4), and so is what its other events are
(log 2). -/
def Obligations.StepIsTotal : Prop :=
  ∀ s : State, s.Inv → ∃ t, step s = .next t

/-- R34, R51: nothing that happens changes the configuration. -/
def Obligations.ConfigurationNeverChanges : Prop :=
  ∀ s t : State, step s = .next t → t.cfg = s.cfg

/-- R28: STATUS bit by bit in every state, its only four values, that a write does not reach it, and that reading it changes nothing
but the record of what the host has read. -/
def Obligations.StatusBits : Prop :=
  (∀ s : State,
    ((s.hostRead 0x08).getLsbD 0 = true ↔ s.phase = .busy) ∧ (s.hostRead 0x08).getLsbD 1 = s.done ∧
      ((s.hostRead 0x08).getLsbD 2 = true ↔ s.phase = .faulted) ∧ (s.hostRead 0x08).toNat < 8) ∧
  (∀ s : State, s.Inv →
    (s.phase = .idle ∧ s.done = false ∧ s.hostRead 0x08 = 0x00) ∨ (s.phase = .busy ∧ s.hostRead 0x08 = 0x01) ∨
      (s.phase = .idle ∧ s.done = true ∧ s.hostRead 0x08 = 0x02) ∨ (s.phase = .faulted ∧ s.hostRead 0x08 = 0x04)) ∧
  (∀ (s : State) (v : Byte), s.phase = .idle → s.hostWrite 0x08 v = s) ∧
  ∀ s : State, takeEvent (.read 0x08) s = .next { s with reads := s.reads ++ [s.hostRead 0x08] }

/-- R29: FAULT shows the code and zeros above it, is read-only, is nonzero exactly when faulted, and is written only by fault entry
and by reset. -/
def Obligations.FaultRegister : Prop :=
  (∀ s : State, (s.hostRead 0x09).toNat = s.fcode.toNat) ∧
  (∀ s : State, s.Inv → (s.fcode ≠ 0 ↔ s.phase = .faulted)) ∧
  (∀ (s : State) (v : Byte), s.phase = .idle → s.hostWrite 0x09 v = s) ∧
  ∀ s t : State, step s = .next t → t.fcode ≠ s.fcode →
    s.nextEvent = .reset ∨ (s.phase ≠ .faulted ∧ t.phase = .faulted ∧ ∃ k : FaultCode, t.fcode = k.code)

/-! ### The host's transactions -/

/-- R54, R56, R58: what a read returns at each address, reserved ones included, in every phase. -/
def Obligations.HostReadsTheRegisterMap : Prop :=
  (∀ s : State,
    (s.hostRead 0x00).toNat = s.posx.toNat ∧ (s.hostRead 0x01).toNat = s.posy.toNat ∧
    (s.hostRead 0x02).toNat = s.angle.toNat ∧ (s.hostRead 0x03).toNat = s.column.toNat ∧
    (s.hostRead 0x04).toNat = s.row.toNat ∧ (s.hostRead 0x05).toNat = s.arg.toNat ∧
    (s.hostRead 0x06).toNat = s.result.toNat ∧ s.hostRead 0x07 = 0 ∧
    ((s.hostRead 0x08).toNat = (if s.phase = .busy then 1 else 0) + (if s.done then 2 else 0) +
      (if s.phase = .faulted then 4 else 0)) ∧
    (s.hostRead 0x09).toNat = s.fcode.toNat ∧ (s.hostRead 0x0A).toNat = s.glyph.toNat ∧
    (s.hostRead 0x0B).toNat = s.data0.toNat ∧ (s.hostRead 0x0C).toNat = s.data1.toNat ∧
    (s.hostRead 0x0D).toNat = s.rayx.toNat ∧ (s.hostRead 0x0E).toNat = s.rayy.toNat ∧
    (s.hostRead 0x0F).toNat = s.perp.toNat ∧ (s.hostRead 0x10).toNat = s.side.toNat ∧
    (s.hostRead 0x11).toNat = s.hitcell.toNat ∧ (s.hostRead 0x12).toNat = s.steps.toNat) ∧
  ∀ (s : State) (a : RegAddr), 0x13 ≤ a.toNat → s.hostRead a = 0

/-- R57, R58, R202: a write by phase first and then by address: nothing while faulted, BUSYWR while busy at any address, and while
idle the register map, the bits above a narrow register dropped, CMD an accept, read-only and reserved addresses ignored. -/
def Obligations.HostWritesByPhaseAndAddress : Prop :=
  ∀ (s : State) (a : RegAddr) (v : Byte),
    (s.phase = .faulted → s.hostWrite a v = s) ∧
    (s.phase = .busy → s.hostWrite a v = { s with fcode := 2, phase := .faulted, done := false }) ∧
    (s.phase = .idle →
      (a.toNat = 0 → s.hostWrite a v = { s with posx := v }) ∧
      (a.toNat = 1 → s.hostWrite a v = { s with posy := v }) ∧
      (a.toNat = 2 → s.hostWrite a v = { s with angle := BitVec.ofNat 6 (v.toNat % 64) }) ∧
      (a.toNat = 3 → s.hostWrite a v = { s with column := BitVec.ofNat 6 (v.toNat % 64) }) ∧
      (a.toNat = 4 → s.hostWrite a v = { s with row := BitVec.ofNat 4 (v.toNat % 16) }) ∧
      (a.toNat = 5 → s.hostWrite a v = { s with arg := v }) ∧
      (a.toNat = 6 → s.hostWrite a v = { s with result := v }) ∧
      (a.toNat = 7 → s.hostWrite a v =
        if (0x0A ≤ v.toNat ∧ v.toNat ≤ 0x3F) ∨ 0x80 ≤ v.toNat then { s with fcode := 1, phase := .faulted, done := false }
        else { s with pend := v, done := false, phase := .busy }) ∧
      (8 ≤ a.toNat → s.hostWrite a v = s))

/-- The host's and the environment's events in the model's total order of events (V5; log 2, 3, 9 for its form): the first event listed
acts, is taken off the list, and a read is recorded. -/
def Obligations.StepLetsTheNextEventAct : Prop :=
  ∀ (s : State) (rest : List Event),
    (∀ a : RegAddr, s.inputs = .read a :: rest →
      step s = .next { s with inputs := rest, reads := s.reads ++ [s.hostRead a] }) ∧
    (∀ (a : RegAddr) (v : Byte), s.inputs = .write a v :: rest →
      step s = .next { s.hostWrite a v with inputs := rest }) ∧
    (s.inputs = .reset :: rest → step s = .next { State.resetWith s.cfg with inputs := rest, reads := s.reads })

/-- R89, R240: the host's WAIT ends, whatever number `n + 1` of its reads find the engine busy: the command is performed, the last
read sees STATUS with BUSY clear, and the loop is off the list. That the loop is one event and the number of its reads is given with it
is the model's choice (log 9). -/
def Obligations.WaitEnds : Prop :=
  ∀ (s : State) (i : Instr) (n : Nat) (rest : List Event),
    s.phase = .busy → s.done = false → decode s.pend = .command i → s.inputs = .poll n :: rest →
      ∃ u : State,
        exec i { s with inputs := .poll 0 :: rest, reads := s.reads ++ List.replicate (n + 1) 0x01 } = .next u ∧
        u.status.getLsbD 0 = false ∧
        run (n + 3) s = .next { u with inputs := rest, reads := u.reads ++ [u.status] }

/-- R240, R56: a busy engine to which the host makes only reads completes its command, and each of those reads returns what the
register held at the accept. That the engine's turn comes once the list of events is empty is the model's choice (log 2). -/
def Obligations.BusyEngineCompletesAfterReads : Prop :=
  ∀ (s : State) (i : Instr) (as : List RegAddr),
    s.phase = .busy → decode s.pend = .command i → s.inputs = as.map Event.read →
      run (as.length + 1) s = exec i { s with inputs := [], reads := s.reads ++ as.map s.hostRead } ∧
      ∃ t, exec i { s with inputs := [], reads := s.reads ++ as.map s.hostRead } = .next t ∧ t.phase ≠ .busy

/-! ### Faults and reset -/

/-- R204, R200: fault entry, the codes, and what STATUS and FAULT read afterwards. -/
def Obligations.FaultEntry : Prop :=
  (∀ (s : State) (k : FaultCode),
    s.raiseFault k = { s with fcode := k.code, phase := .faulted, done := false } ∧
      (s.raiseFault k).hostRead 0x08 = 0x04 ∧ ((s.raiseFault k).hostRead 0x09).toNat = k.code.toNat) ∧
  FaultCode.illCmd.code = 1 ∧ FaultCode.busyWr.code = 2 ∧ FaultCode.recipZ.code = 3 ∧ FaultCode.gridRng.code = 4 ∧
    FaultCode.sideOvf.code = 5 ∧ FaultCode.hgtRng.code = 6 ∧ FaultCode.stripRng.code = 7

/-- R205: whatever faults, a command or a write, changes `fcode`, `phase` and `done` and nothing else; and a command that faults after
its accept leaves every register as it was before the accept. -/
def Obligations.FaultsArePrecise : Prop :=
  (∀ (i : Instr) (s t : State), exec i s = .next t → t.phase = .faulted →
    ∃ k : FaultCode, t = { s with fcode := k.code, phase := .faulted, done := false }) ∧
  (∀ (s : State) (a : RegAddr) (v : Byte), s.phase ≠ .faulted → (s.hostWrite a v).phase = .faulted →
    ∃ k : FaultCode, s.hostWrite a v = { s with fcode := k.code, phase := .faulted, done := false }) ∧
  ∀ (i : Instr) (s t : State), s.phase = .idle → exec i (s.hostWrite 0x07 (encode i)) = .next t → t.phase = .faulted →
    ∀ r : Reg, r ≠ .status → r ≠ .fault → t.readReg r = s.readReg r

/-- R207, R208: the four cast faults are raised by CAST and CASTI only, STRIPRNG by STRIP only, and every other command completes
successfully from every state. -/
def Obligations.OnlyCastsAndStripFault : Prop :=
  (∀ (i : Instr) (s t : State), exec i s = .next t → t.phase = .faulted →
    ((i = .cast ∨ ∃ c, i = .casti c) ∧ 3 ≤ t.fcode.toNat ∧ t.fcode.toNat ≤ 6) ∨ (i = .strip ∧ t.fcode.toNat = 7)) ∧
  ∀ (i : Instr) (s : State), i ≠ .cast → (∀ c, i ≠ .casti c) → i ≠ .strip →
    ∃ t, exec i s = .next t ∧ t.phase = .idle ∧ t.done = true ∧ t.fcode = s.fcode

/-- R206: faulted is terminal until reset: however many steps are taken, every register keeps its value; the reset leaves the state
and nothing of the faulted run survives but the host's record of its reads (log 2, 3, 9). -/
def Obligations.FaultedIsTerminalUntilReset : Prop :=
  (∀ (n : Nat) (s : State), s.phase = .faulted → .reset ∉ s.inputs →
    ∃ t, run n s = .next t ∧ t = { s with inputs := t.inputs, reads := t.reads }) ∧
  ∀ (s : State) (rest : List Event), s.phase = .faulted → s.inputs = .reset :: rest →
    step s = .next { State.resetWith s.cfg with inputs := rest, reads := s.reads }

/-- R230, R231, R36: reset, in any phase, gives every piece of state its reset value, whatever the host had written, abandons a pending
command, clears a fault, and keeps the configuration. -/
def Obligations.ResetGivesEveryRegisterItsValue : Prop :=
  ∀ s t : State, t = s.resetEvent →
    t.posx = s.cfg.startPosx ∧ t.posy = s.cfg.startPosy ∧ t.angle = s.cfg.startAngle ∧ t.column = 0 ∧ t.row = 0 ∧
      t.arg = 0 ∧ t.result = 0 ∧ t.glyph = 0 ∧ t.data0 = 0 ∧ t.data1 = 0 ∧ t.rayx = 0 ∧ t.rayy = 0 ∧ t.perp = 0 ∧
      t.side = 0 ∧ t.hitcell = 0 ∧ t.steps = 0 ∧ t.fcode = 0 ∧ t.phase = .idle ∧ t.pend = 0 ∧ t.done = false ∧
      t.cfg = s.cfg ∧ t.hostRead 0x08 = 0x00

/-- R36, spec/95_test_vectors.md T-Q1: after reset the host reads the start constants at addresses 0, 1 and 2, and 0 everywhere
else. -/
def Obligations.HostReadsAfterReset : Prop :=
  let shown (c : Cfg) (a : RegAddr) : Nat :=
    if a.toNat = 0 then c.startPosx.toNat
    else if a.toNat = 1 then c.startPosy.toNat
    else if a.toNat = 2 then c.startAngle.toNat
    else 0
  (∀ (s : State) (a : RegAddr), (s.resetEvent.hostRead a).toNat = shown s.cfg a) ∧
    ∀ a : RegAddr, (State.reset.hostRead a).toNat = shown Config.cfg a

/-! ### The small commands -/

/-- R134: NOP completes and changes nothing but `phase` and `done`. -/
def Obligations.NopOnlyCompletes : Prop :=
  encode .nop = 0x00 ∧ ∀ s : State, exec .nop s = .next { s with phase := .idle, done := true }

/-- R135: ROT advances the angle by one modulo 64. -/
def Obligations.RotAdvancesTheAngle : Prop :=
  encode .rot = 0x03 ∧
    ∀ s : State, exec .rot s =
      .next { s with angle := BitVec.ofNat 6 ((s.angle.toNat + 1) % 64), phase := .idle, done := true }

/-- R136, R137: ADDX and ADDY add ARG modulo 256. -/
def Obligations.AddsWrapModulo256 : Prop :=
  encode .addx = 0x08 ∧ encode .addy = 0x09 ∧
    ∀ s : State,
      exec .addx s =
        .next { s with posx := BitVec.ofNat 8 ((s.posx.toNat + s.arg.toNat) % 256), phase := .idle, done := true } ∧
      exec .addy s =
        .next { s with posy := BitVec.ofNat 8 ((s.posy.toNat + s.arg.toNat) % 256), phase := .idle, done := true }

/-- R110: LDDIR shows both components of the entry at `ARG mod 64`. -/
def Obligations.LddirShowsADirection : Prop :=
  encode .lddir = 0x04 ∧
    ∀ s : State, exec .lddir s =
      .next { s with
        data0 := s.cfg.dir[s.arg.toNat % 64].dx
        data1 := s.cfg.dir[s.arg.toNat % 64].dy
        phase := .idle
        done := true }

/-- R111, R112: LDREC and LDHGT show the whole entry at ARG, and clear DATA1. -/
def Obligations.TableProbesShowTheEntry : Prop :=
  encode .ldrec = 0x05 ∧ encode .ldhgt = 0x06 ∧
    ∀ s : State,
      exec .ldrec s =
        .next { s with data0 := s.cfg.recip[s.arg.toNat]'s.arg.isLt, data1 := 0, phase := .idle, done := true } ∧
      exec .ldhgt s =
        .next { s with data0 := s.cfg.height[s.arg.toNat]'s.arg.isLt, data1 := 0, phase := .idle, done := true }

/-- R113: LDCELL shows the cell at `mx = ARG[2:0]`, `my = ARG[5:3]`: 1 for wall, 0 for floor. -/
def Obligations.LdcellShowsACell : Prop :=
  encode .ldcell = 0x07 ∧
    ∀ s : State, exec .ldcell s =
      .next { s with
        data0 := if (s.cfg.grid[s.arg.toNat / 8 % 8])[s.arg.toNat % 8] = .wall then 1 else 0
        data1 := 0
        phase := .idle
        done := true }

/-- R190, R192, R193: STRIP, for every result and row: the glyph class inside and outside the interval, and the fault for heights of
27 and above, which leaves GLYPH as it was. -/
def Obligations.StripAnswersForARow : Prop :=
  encode .strip = 0x02 ∧
    ∀ s : State,
      (s.result.toNat % 128 ≤ 26 →
        exec .strip s =
          .next { s with
            glyph :=
              if 8 - s.result.toNat % 128 / 3 ≤ s.row.toNat ∧ s.row.toNat < 8 + s.result.toNat % 128 / 3 then
                (if 128 ≤ s.result.toNat then 2 else 1)
              else 0
            phase := .idle
            done := true }) ∧
      (27 ≤ s.result.toNat % 128 →
        exec .strip s = .next { s with fcode := 7, phase := .faulted, done := false })

/-- R191: the strip covers `2 * half` rows of the sixteen and is symmetric about the boundary between rows 7 and 8. -/
def Obligations.StripIsSymmetric : Prop :=
  ∀ s : State, s.result.toNat % 128 ≤ 26 →
    ((List.range 16).filter fun r => s.stripAt r != some 0).length = 2 * (s.result.toNat % 128 / 3) ∧
      ∀ r : Nat, r < 16 → s.stripAt r = s.stripAt (15 - r)

/-! ### Arithmetic -/

/-- R21: a position is 32 times its cell index plus its offset. -/
def Obligations.PositionIsCellAndOffset : Prop :=
  ∀ p : Byte, p.toNat = 32 * (cellOf p).toNat + (offOf p).toNat

/-- R130: ADD8. -/
def Obligations.AdderSumAndCarry : Prop :=
  ∀ a b : Byte, (add8 a b).1.toNat = (a.toNat + b.toNat) % 256 ∧ ((add8 a b).2 = true ↔ 256 ≤ a.toNat + b.toNat)

/-- R131: SUB8, and that it undoes ADD8 whether or not the addition carried. -/
def Obligations.SubtractorUndoesTheAdder : Prop :=
  ∀ a b : Byte, (sub8 a b).1.toNat = (a.toNat + 256 - b.toNat) % 256 ∧ ((sub8 a b).2 = true ↔ a.toNat < b.toNat) ∧
    (sub8 (add8 a b).1 b).1 = a

/-- R132: the signed primitives of the ray generator. -/
def Obligations.SignedPrimitives : Prop :=
  (∀ s : Byte, s.toInt ≠ -128 → (neg8 s).toInt = -s.toInt) ∧ (neg8 0x80).toInt = -128 ∧
  (∀ a b : Byte, (mul8x8 a b).toInt = a.toInt * b.toInt ∧ -16256 ≤ (mul8x8 a b).toInt ∧ (mul8x8 a b).toInt ≤ 16384) ∧
  (∀ p : Half, (div64 p).toInt = p.toInt.tdiv 64) ∧
  (∀ a b : Byte, -254 ≤ (div64 (mul8x8 a b)).toInt ∧ (div64 (mul8x8 a b)).toInt ≤ 256) ∧
  ∀ (d : Byte) (q : Half), (narrowSum d q).toInt = Int.bmod (d.toInt + q.toInt) 256

/-- R138, R139, R140, R141: the unsigned primitives. -/
def Obligations.UnsignedPrimitives : Prop :=
  (∀ s : Byte, (abs8 s).toNat = s.toInt.natAbs ∧ (abs8 s).toNat ≤ 128) ∧
  (∀ (e : Nat) (d : Byte), e ≤ 32 → (scale32 e d).toNat = e * d.toNat / 32 ∧ (scale32 e d).toNat ≤ d.toNat) ∧
  (∀ a b : Byte, lt8 a b = true ↔ a.toNat < b.toNat) ∧
  ∀ h : BitVec 7, (div3 h).toNat = h.toNat / 3 ∧ (div3 h).toNat ≤ 42

/-! ### The cast -/

/-- R153 (a): with directions in bound, a ray is exact: nothing wraps, and no component exceeds 64. -/
def Obligations.RayIsExactWithinBound : Prop :=
  ∀ (c : Cfg) (angle column : BitVec 6), c.WfDirBound →
    let dx := (readDir c angle).dx.toInt
    let dy := (readDir c angle).dy.toInt
    let k : Int := 2 * (column.toNat : Int) - 64
    (rayGen c angle column).x.toInt = dx + (dy * k).tdiv 64 ∧ (rayGen c angle column).y.toInt = dy + (-dx * k).tdiv 64 ∧
      (rayGen c angle column).x.toInt.natAbs ≤ 64 ∧ (rayGen c angle column).y.toInt.natAbs ≤ 64

/-- R155: with directions in bound and not (0, 0), no ray is (0, 0). -/
def Obligations.RayIsNeverZeroWhenWellFormed : Prop :=
  ∀ (c : Cfg) (angle column : BitVec 6), c.WfDirBound → c.WfDirNonzero →
    ¬((rayGen c angle column).x = 0 ∧ (rayGen c angle column).y = 0)

/-- R150 to R167: where the walk over the integers reaches a wall, no sum before its last having left eight bits, and the height read
there fits seven bits, CAST and CASTI complete with exactly its results; CASTI also writes COLUMN. -/
def Obligations.CastCompletesAsTheIntegerWalk : Prop :=
  (∀ (s : State) (e : IntEnd) (h : Byte),
    (intStart s.cfg s.posx s.posy s.angle s.column).Ends s.cfg e → s.cfg.height[e.perp]? = some h → h.toNat ≤ 127 →
      exec .cast s = .next (s.afterCast (intRay s.cfg s.angle s.column) e h)) ∧
  ∀ (s : State) (c : BitVec 6) (e : IntEnd) (h : Byte),
    (intStart s.cfg s.posx s.posy s.angle c).Ends s.cfg e → s.cfg.height[e.perp]? = some h → h.toNat ≤ 127 →
      exec (.casti c) s = .next { s.afterCast (intRay s.cfg s.angle c) e h with column := c }

/-- R150, R165, spec/90_conflicts.md C5: conversely, a CAST that completes has a walk over the integers behind it, whose distance is at
most 255 and whose height fits seven bits. -/
def Obligations.CompletedCastIsAnIntegerWalk : Prop :=
  ∀ s t : State, exec .cast s = .next t → t.phase = .idle →
    ∃ (e : IntEnd) (h : Byte), (intStart s.cfg s.posx s.posy s.angle s.column).Ends s.cfg e ∧ e.perp ≤ 255 ∧
      s.cfg.height[e.perp]? = some h ∧ h.toNat ≤ 127 ∧ t = s.afterCast (intRay s.cfg s.angle s.column) e h

/-- R155, R161, R162, R165, R203: where a cast faults, and with which code; nothing is committed. -/
def Obligations.CastFaultsWhereTheWalkBreaks : Prop :=
  (∀ s : State, exec .cast s = .next { s with fcode := 3, phase := .faulted, done := false } ↔
    intRay s.cfg s.angle s.column = (0, 0)) ∧
  (∀ (s : State) (f : FaultCode), (intStart s.cfg s.posx s.posy s.angle s.column).Fails s.cfg f →
    exec .cast s = .next { s with fcode := f.code, phase := .faulted, done := false }) ∧
  ∀ (s : State) (e : IntEnd) (h : Byte),
    (intStart s.cfg s.posx s.posy s.angle s.column).Ends s.cfg e → s.cfg.height[e.perp]? = some h → 128 ≤ h.toNat →
      exec .cast s = .next { s with fcode := 6, phase := .faulted, done := false }

/-- R168: for every configuration and every start the walk, which has no iteration bound, comes to an end: at a wall after at most
fourteen steps, or by breaking off. -/
def Obligations.EveryWalkEnds : Prop :=
  ∀ (c : Cfg) (posx posy : Byte) (angle column : BitVec 6), intRay c angle column ≠ (0, 0) →
    (∃ e, (intStart c posx posy angle column).Ends c e ∧ 1 ≤ e.steps ∧ e.steps ≤ 14) ∨
      ∃ f, (intStart c posx posy angle column).Fails c f

/-- R169 item 2, R161, R168: with a well-formed configuration and a start inside the border, a CAST completes after at most eleven
steps or faults SIDEOVF, and nothing else. -/
def Obligations.WellFormedCastOnlyFaultsSideovf : Prop :=
  ∀ s : State, s.cfg.WfDirBound → s.cfg.WfDirNonzero → s.cfg.WfHgt7Bit → s.cfg.WfGridBorder →
    Cfg.Interior s.posx → Cfg.Interior s.posy →
      (∃ t, exec .cast s = .next t ∧ t.phase = .idle ∧ t.done = true ∧ 1 ≤ t.steps.toNat ∧ t.steps.toNat ≤ 11) ∨
        exec .cast s = .next { s with fcode := 5, phase := .faulted, done := false }

/-- R162, R168: a state that a CAST completes in for sure: a well-formed configuration whose reciprocals are at most 31, so that no
sum of a walk inside the grid can leave eight bits, and a start inside the border. -/
def Obligations.CastCompletesWithSmallReciprocals : Prop :=
  ∀ s : State, s.cfg.WfDirBound → s.cfg.WfDirNonzero → s.cfg.WfHgt7Bit → s.cfg.WfGridBorder →
    Cfg.Interior s.posx → Cfg.Interior s.posy → (∀ m : Fin 256, s.cfg.recip[m].toNat ≤ 31) →
      (∃ t, exec .cast s = .next t ∧ t.phase = .idle ∧ t.done = true) ∧
        ∀ c, ∃ t, exec (.casti c) s = .next t ∧ t.phase = .idle ∧ t.done = true ∧ t.column = c

/-- R166: CASTI's byte is 0x40 plus its column; it ends as `WR COLUMN, c; CAST` does if that succeeds; if it faults, COLUMN is not
written. -/
def Obligations.CastiIsCastOfItsColumn : Prop :=
  (∀ c : BitVec 6, (encode (.casti c)).toNat = 0x40 + c.toNat) ∧
  ∀ (s t : State) (c : BitVec 6), exec .cast { s with column := c } = .next t →
    (t.phase = .idle → exec (.casti c) s = .next t) ∧
      (t.phase = .faulted → exec (.casti c) s = .next { s with fcode := t.fcode, phase := .faulted, done := false })

/-- R37, R169 item 1, R63: a cast depends on its four operand registers and the configuration only. -/
def Obligations.CastIsPure : Prop :=
  ∀ s₁ s₂ t₁ : State, s₁.posx = s₂.posx → s₁.posy = s₂.posy → s₁.angle = s₂.angle → s₁.column = s₂.column →
    s₁.cfg = s₂.cfg → exec .cast s₁ = .next t₁ →
      ∃ t₂, exec .cast s₂ = .next t₂ ∧ t₁.phase = t₂.phase ∧ (t₁.phase = .faulted → t₁.fcode = t₂.fcode) ∧
        (t₁.phase = .idle → t₁.result = t₂.result ∧ t₁.rayx = t₂.rayx ∧ t₁.rayy = t₂.rayy ∧ t₁.perp = t₂.perp ∧
          t₁.side = t₂.side ∧ t₁.hitcell = t₂.hitcell ∧ t₁.steps = t₂.steps)

/-- R164, R169 item 4: at the final step with both axes active, the distance is the side distance of the axis taken before that
step, strictly smaller than the other's if X was taken, and not larger if Y was. -/
def Obligations.DistanceIsTheSmallerSide : Prop :=
  ∀ (c : Cfg) (w : Walk) (x y : AxisRun) (e : WalkEnd), w.active = .both x y → w.step c = .hit e →
    (e.last = .x → correct e.side e.delta = x.side ∧ x.side.toNat < y.side.toNat) ∧
      (e.last = .y → correct e.side e.delta = y.side ∧ y.side.toNat ≤ x.side.toNat)

/-- R169 item 3: the axis-restricted walk and a walk with the other axis active agree on the wall reached and on everything else the
walk leaves, as long as the other axis's side distance never is the smaller. -/
def Obligations.RestrictedWalkAgreesWithGeneral : Prop :=
  (∀ (c : Cfg) (n : Nat) (w : Walk) (x y : AxisRun) (e : WalkEnd), w.active = .xOnly x → walk c n w = .ok e →
    (correct e.side e.delta).toNat < y.side.toNat → walk c n { w with active := .both x y } = .ok e) ∧
  ∀ (c : Cfg) (n : Nat) (w : Walk) (x y : AxisRun) (e : WalkEnd), w.active = .yOnly y → walk c n w = .ok e →
    (correct e.side e.delta).toNat ≤ x.side.toNat → walk c n { w with active := .both x y } = .ok e

/-- R150, spec/95_test_vectors.md T-L1: the source's scenario 1, for every configuration with the clauses it needs. -/
def Obligations.SourceScenarioOne : Prop :=
  ∀ s : State, s.cfg.WfDir0 → s.cfg.WfRec32 → s.cfg.WfHgt31 → s.cfg.WfGridBorder → s.cfg.WfGridCorridor →
    s.posx = 100 → s.posy = 128 → s.angle = 0 → s.column = 32 →
      exec .cast s = .next { s with
        result := 0x08, rayx := 0x20, rayy := 0x00, perp := 31, side := 39, hitcell := 0x27, steps := 4,
        phase := .idle, done := true }

/-- R169 item 5, spec/95_test_vectors.md T-L2 (a): the rays of columns 0 and 32 at angle 0. -/
def Obligations.SourceScenarioTwoRays : Prop :=
  ∀ c : Cfg, c.WfDir0 → rayGen c 0 0 = { x := 32, y := 32 } ∧ rayGen c 0 32 = { x := 32, y := 0 }

/-- R66: how often a completed CAST reads each ROM: the grid once per step, never for the start cell. -/
def Obligations.CompletedCastRomReads : Prop :=
  ∀ s t : State, exec .cast s = .next t → t.phase = .idle →
    (romReads .cast s).dirrom = 1 ∧ 1 ≤ (romReads .cast s).recrom ∧ (romReads .cast s).recrom ≤ 2 ∧
      (romReads .cast s).gridrom = t.steps.toNat ∧ (romReads .cast s).hgtrom = 1

/-! ### All commands -/

/-- R85: the frame of every command: it leaves `phase` idle with `done` set or enters a fault, and it changes no register outside its
row of the table of writes, nor the configuration, and, if it completes, not `fcode`. Three clauses are no rule of the spec and the
model's choice: that `pend` keeps its value (log 8), and that the list of events (log 2) and the record of reads (log 3) do. -/
def Obligations.CommandFrame : Prop :=
  ∀ (i : Instr) (s t : State), exec i s = .next t →
    (∀ r : Reg, r ∉ i.writes → r ≠ .status → r ≠ .fault → t.readReg r = s.readReg r) ∧
    ((t.phase = .idle ∧ t.done = true ∧ t.fcode = s.fcode) ∨
      (t.phase = .faulted ∧ t.done = false ∧ ∀ r : Reg, r ≠ .status → r ≠ .fault → t.readReg r = s.readReg r)) ∧
    t.pend = s.pend ∧ t.cfg = s.cfg ∧ t.inputs = s.inputs ∧ t.reads = s.reads
end

