-- ==== Sys2Proof/Laws/Arith.lean ====
section
/-! SUPPORT. What each arithmetic primitive computes, over the integers and the natural numbers. -/

namespace Sys2Proof.Machine

theorem byte_toInt_bounds (a : Byte) : -128 ≤ a.toInt ∧ a.toInt ≤ 127 := by
  have h1 := BitVec.le_toInt a
  have h2 := BitVec.toInt_lt (x := a)
  simp at h1 h2
  omega

theorem byte_toInt_eq_zero (b : Byte) : b.toInt = 0 ↔ b = 0 :=
  ⟨fun h => BitVec.eq_of_toInt_eq (by simpa using h), by rintro rfl; rfl⟩

theorem append_toNat {m n : Nat} (a : BitVec m) (b : BitVec n) : (a ++ b).toNat = a.toNat * 2 ^ n + b.toNat := by
  rw [BitVec.toNat_append, Nat.shiftLeft_eq, Nat.mul_comm, Nat.two_pow_add_eq_or_of_lt b.isLt]

theorem setWidth8_toNat {n : Nat} (b : BitVec n) (h : n ≤ 8) : (b.setWidth 8).toNat = b.toNat := by
  rw [BitVec.toNat_setWidth, Nat.mod_eq_of_lt]
  exact lt_of_lt_of_le b.isLt (Nat.pow_le_pow_right (by norm_num) h)

theorem bit7_eq (h : Byte) : h.getLsbD 7 = decide (128 ≤ h.toNat) := by
  have := h.isLt
  rw [BitVec.getLsbD, Nat.testBit_eq_decide_div_mod_eq]
  congr 1
  simp
  omega

theorem add8_fst (a b : Byte) : (add8 a b).1 = a + b := by
  apply BitVec.eq_of_toNat_eq
  simp [add8]

theorem sub8_fst (a b : Byte) : (sub8 a b).1 = a - b := by
  apply BitVec.eq_of_toInt_eq
  simp only [sub8, BitVec.toInt_ofInt, BitVec.toInt_sub]
  rw [BitVec.toInt_eq_toNat_bmod a, BitVec.toInt_eq_toNat_bmod b]
  simp

theorem mul8x8_toInt (a b : Byte) :
    (mul8x8 a b).toInt = a.toInt * b.toInt ∧ -16256 ≤ a.toInt * b.toInt ∧ a.toInt * b.toInt ≤ 16384 := by
  have ha := byte_toInt_bounds a
  have hb := byte_toInt_bounds b
  have h1 : -16256 ≤ a.toInt * b.toInt := by nlinarith
  have h2 : a.toInt * b.toInt ≤ 16384 := by nlinarith
  refine ⟨?_, h1, h2⟩
  simp only [mul8x8, BitVec.toInt_ofInt]
  rw [Int.bmod_eq_of_le (by norm_num; omega) (by norm_num; omega)]

theorem div64_toInt (p : Half) : (div64 p).toInt = p.toInt.tdiv 64 := by
  have h1 := BitVec.le_toInt p
  have h2 := BitVec.toInt_lt (x := p)
  simp at h1 h2
  simp only [div64, BitVec.toInt_ofInt]
  have := Int.mul_tdiv_add_tmod p.toInt 64
  have h3 := Int.tmod_lt_of_pos p.toInt (b := 64) (by norm_num)
  have h4 := Int.lt_tmod_of_pos p.toInt (b := 64) (by norm_num)
  rw [Int.bmod_eq_of_le (by norm_num; omega) (by norm_num; omega)]

theorem narrowSum_toInt (d : Byte) (q : Half) : (narrowSum d q).toInt = Int.bmod (d.toInt + q.toInt) 256 := by
  simp [narrowSum, BitVec.toInt_ofInt]

theorem neg8_toInt (s : Byte) : (neg8 s).toInt = Int.bmod (-s.toInt) 256 := by
  simp [neg8, BitVec.toInt_ofInt]

theorem abs8_toNat (s : Byte) : (abs8 s).toNat = s.toInt.natAbs := by
  have := byte_toInt_bounds s
  simp only [abs8, BitVec.toNat_ofNat]
  omega

theorem scale32_toNat (e : Nat) (d : Byte) (h : e ≤ 32) :
    (scale32 e d).toNat = e * d.toNat / 32 ∧ e * d.toNat / 32 ≤ d.toNat := by
  have hd := d.isLt
  have h1 : e * d.toNat / 32 ≤ d.toNat := by
    rw [Nat.div_le_iff_le_mul_add_pred (by norm_num)]
    nlinarith
  refine ⟨?_, h1⟩
  simp only [scale32, BitVec.toNat_ofNat, Nat.shiftRight_eq_div_pow]
  norm_num
  omega

theorem cellOf_toNat (p : Byte) : (cellOf p).toNat = p.toNat / 32 := by
  have := p.isLt
  simp [cellOf, BitVec.extractLsb'_toNat, Nat.shiftRight_eq_div_pow]
  omega

theorem offOf_toNat (p : Byte) : (offOf p).toNat = p.toNat % 32 := by
  simp [offOf, BitVec.extractLsb'_toNat]

end Sys2Proof.Machine
end

