-- ==== Sys2Proof/Laws/Decode.lean ====
section
/-! SUPPORT. Small lemmas about the command byte's fields and the opcode table. -/

namespace Sys2Proof

theorem fmtField_append (f : BitVec 2) (l : BitVec 6) : fmtField (f ++ l) = f := by
  ext k hk
  simp only [fmtField, BitVec.getElem_extractLsb', BitVec.getLsbD_append]
  rw [if_neg (by omega), Nat.add_sub_cancel_left, BitVec.getLsbD_eq_getElem hk]

theorem lowField_append (f : BitVec 2) (l : BitVec 6) : lowField (f ++ l) = l := by
  ext k hk
  simp only [lowField, BitVec.getElem_extractLsb', BitVec.getLsbD_append, Nat.zero_add]
  rw [if_pos hk, BitVec.getLsbD_eq_getElem hk]

theorem fmtField_encode (i : Instr) : fmtField (encode i) = i.format.bits :=
  fmtField_append _ _

theorem lowField_encode (i : Instr) : lowField (encode i) = i.low :=
  lowField_append _ _

/-- No two rows of the opcode table share a byte: on the bits both masks look at, they differ. -/
theorem opcodeTable_rows_disjoint :
    opcodeTable.Pairwise (fun a b => a.bits &&& (a.mask &&& b.mask) ≠ b.bits &&& (a.mask &&& b.mask)) := by
  decide

theorem opcodeTable_row_of_mnemonic (i : Instr) : i.mnemonic ∈ opcodeTable.map OpRow.mnemonic := by
  cases i <;> simp [Instr.mnemonic, opcodeTable]

theorem tableByte_of_lt {w : Nat} (h : w < 256) : tableByte 8 w = BitVec.ofNat 8 w := by
  simp [tableByte, Nat.mod_eq_of_lt h]

theorem decodeTableWord_eq_some {nbits w : Nat} {i : Instr} :
    decodeTableWord nbits w = some i ↔ decode (tableByte nbits w) = .command i := by
  unfold decodeTableWord
  cases decode (tableByte nbits w) <;> simp

end Sys2Proof
end

