-- ==== Sys2Proof/Laws/State.lean ====
section
/-! SUPPORT. One lemma per field of State per named update, so that no later proof unfolds a record update. -/

namespace Sys2Proof.Machine

variable (s : State)

/-! ### completed: the end of a command -/

@[simp] theorem State.completed_posx : s.completed.posx = s.posx := rfl
@[simp] theorem State.completed_posy : s.completed.posy = s.posy := rfl
@[simp] theorem State.completed_angle : s.completed.angle = s.angle := rfl
@[simp] theorem State.completed_column : s.completed.column = s.column := rfl
@[simp] theorem State.completed_row : s.completed.row = s.row := rfl
@[simp] theorem State.completed_arg : s.completed.arg = s.arg := rfl
@[simp] theorem State.completed_result : s.completed.result = s.result := rfl
@[simp] theorem State.completed_glyph : s.completed.glyph = s.glyph := rfl
@[simp] theorem State.completed_data0 : s.completed.data0 = s.data0 := rfl
@[simp] theorem State.completed_data1 : s.completed.data1 = s.data1 := rfl
@[simp] theorem State.completed_rayx : s.completed.rayx = s.rayx := rfl
@[simp] theorem State.completed_rayy : s.completed.rayy = s.rayy := rfl
@[simp] theorem State.completed_perp : s.completed.perp = s.perp := rfl
@[simp] theorem State.completed_side : s.completed.side = s.side := rfl
@[simp] theorem State.completed_hitcell : s.completed.hitcell = s.hitcell := rfl
@[simp] theorem State.completed_steps : s.completed.steps = s.steps := rfl
@[simp] theorem State.completed_phase : s.completed.phase = .idle := rfl
@[simp] theorem State.completed_pend : s.completed.pend = s.pend := rfl
@[simp] theorem State.completed_done : s.completed.done = true := rfl
@[simp] theorem State.completed_fcode : s.completed.fcode = s.fcode := rfl
@[simp] theorem State.completed_cfg : s.completed.cfg = s.cfg := rfl
@[simp] theorem State.completed_inputs : s.completed.inputs = s.inputs := rfl
@[simp] theorem State.completed_reads : s.completed.reads = s.reads := rfl

/-! ### raiseFault: fault entry -/

@[simp] theorem State.raiseFault_posx (k : FaultCode) : (s.raiseFault k).posx = s.posx := rfl
@[simp] theorem State.raiseFault_posy (k : FaultCode) : (s.raiseFault k).posy = s.posy := rfl
@[simp] theorem State.raiseFault_angle (k : FaultCode) : (s.raiseFault k).angle = s.angle := rfl
@[simp] theorem State.raiseFault_column (k : FaultCode) : (s.raiseFault k).column = s.column := rfl
@[simp] theorem State.raiseFault_row (k : FaultCode) : (s.raiseFault k).row = s.row := rfl
@[simp] theorem State.raiseFault_arg (k : FaultCode) : (s.raiseFault k).arg = s.arg := rfl
@[simp] theorem State.raiseFault_result (k : FaultCode) : (s.raiseFault k).result = s.result := rfl
@[simp] theorem State.raiseFault_glyph (k : FaultCode) : (s.raiseFault k).glyph = s.glyph := rfl
@[simp] theorem State.raiseFault_data0 (k : FaultCode) : (s.raiseFault k).data0 = s.data0 := rfl
@[simp] theorem State.raiseFault_data1 (k : FaultCode) : (s.raiseFault k).data1 = s.data1 := rfl
@[simp] theorem State.raiseFault_rayx (k : FaultCode) : (s.raiseFault k).rayx = s.rayx := rfl
@[simp] theorem State.raiseFault_rayy (k : FaultCode) : (s.raiseFault k).rayy = s.rayy := rfl
@[simp] theorem State.raiseFault_perp (k : FaultCode) : (s.raiseFault k).perp = s.perp := rfl
@[simp] theorem State.raiseFault_side (k : FaultCode) : (s.raiseFault k).side = s.side := rfl
@[simp] theorem State.raiseFault_hitcell (k : FaultCode) : (s.raiseFault k).hitcell = s.hitcell := rfl
@[simp] theorem State.raiseFault_steps (k : FaultCode) : (s.raiseFault k).steps = s.steps := rfl
@[simp] theorem State.raiseFault_phase (k : FaultCode) : (s.raiseFault k).phase = .faulted := rfl
@[simp] theorem State.raiseFault_pend (k : FaultCode) : (s.raiseFault k).pend = s.pend := rfl
@[simp] theorem State.raiseFault_done (k : FaultCode) : (s.raiseFault k).done = false := rfl
@[simp] theorem State.raiseFault_fcode (k : FaultCode) : (s.raiseFault k).fcode = k.code := rfl
@[simp] theorem State.raiseFault_cfg (k : FaultCode) : (s.raiseFault k).cfg = s.cfg := rfl
@[simp] theorem State.raiseFault_inputs (k : FaultCode) : (s.raiseFault k).inputs = s.inputs := rfl
@[simp] theorem State.raiseFault_reads (k : FaultCode) : (s.raiseFault k).reads = s.reads := rfl

/-! ### logRead: the host's record of a read -/

@[simp] theorem State.logRead_posx (v : Byte) : (s.logRead v).posx = s.posx := rfl
@[simp] theorem State.logRead_posy (v : Byte) : (s.logRead v).posy = s.posy := rfl
@[simp] theorem State.logRead_angle (v : Byte) : (s.logRead v).angle = s.angle := rfl
@[simp] theorem State.logRead_column (v : Byte) : (s.logRead v).column = s.column := rfl
@[simp] theorem State.logRead_row (v : Byte) : (s.logRead v).row = s.row := rfl
@[simp] theorem State.logRead_arg (v : Byte) : (s.logRead v).arg = s.arg := rfl
@[simp] theorem State.logRead_result (v : Byte) : (s.logRead v).result = s.result := rfl
@[simp] theorem State.logRead_glyph (v : Byte) : (s.logRead v).glyph = s.glyph := rfl
@[simp] theorem State.logRead_data0 (v : Byte) : (s.logRead v).data0 = s.data0 := rfl
@[simp] theorem State.logRead_data1 (v : Byte) : (s.logRead v).data1 = s.data1 := rfl
@[simp] theorem State.logRead_rayx (v : Byte) : (s.logRead v).rayx = s.rayx := rfl
@[simp] theorem State.logRead_rayy (v : Byte) : (s.logRead v).rayy = s.rayy := rfl
@[simp] theorem State.logRead_perp (v : Byte) : (s.logRead v).perp = s.perp := rfl
@[simp] theorem State.logRead_side (v : Byte) : (s.logRead v).side = s.side := rfl
@[simp] theorem State.logRead_hitcell (v : Byte) : (s.logRead v).hitcell = s.hitcell := rfl
@[simp] theorem State.logRead_steps (v : Byte) : (s.logRead v).steps = s.steps := rfl
@[simp] theorem State.logRead_phase (v : Byte) : (s.logRead v).phase = s.phase := rfl
@[simp] theorem State.logRead_pend (v : Byte) : (s.logRead v).pend = s.pend := rfl
@[simp] theorem State.logRead_done (v : Byte) : (s.logRead v).done = s.done := rfl
@[simp] theorem State.logRead_fcode (v : Byte) : (s.logRead v).fcode = s.fcode := rfl
@[simp] theorem State.logRead_cfg (v : Byte) : (s.logRead v).cfg = s.cfg := rfl
@[simp] theorem State.logRead_inputs (v : Byte) : (s.logRead v).inputs = s.inputs := rfl
@[simp] theorem State.logRead_reads (v : Byte) : (s.logRead v).reads = s.reads ++ [v] := rfl

/-! ### pushInputs: events put in front -/

@[simp] theorem State.pushInputs_posx (es : List Event) : (s.pushInputs es).posx = s.posx := rfl
@[simp] theorem State.pushInputs_posy (es : List Event) : (s.pushInputs es).posy = s.posy := rfl
@[simp] theorem State.pushInputs_angle (es : List Event) : (s.pushInputs es).angle = s.angle := rfl
@[simp] theorem State.pushInputs_column (es : List Event) : (s.pushInputs es).column = s.column := rfl
@[simp] theorem State.pushInputs_row (es : List Event) : (s.pushInputs es).row = s.row := rfl
@[simp] theorem State.pushInputs_arg (es : List Event) : (s.pushInputs es).arg = s.arg := rfl
@[simp] theorem State.pushInputs_result (es : List Event) : (s.pushInputs es).result = s.result := rfl
@[simp] theorem State.pushInputs_glyph (es : List Event) : (s.pushInputs es).glyph = s.glyph := rfl
@[simp] theorem State.pushInputs_data0 (es : List Event) : (s.pushInputs es).data0 = s.data0 := rfl
@[simp] theorem State.pushInputs_data1 (es : List Event) : (s.pushInputs es).data1 = s.data1 := rfl
@[simp] theorem State.pushInputs_rayx (es : List Event) : (s.pushInputs es).rayx = s.rayx := rfl
@[simp] theorem State.pushInputs_rayy (es : List Event) : (s.pushInputs es).rayy = s.rayy := rfl
@[simp] theorem State.pushInputs_perp (es : List Event) : (s.pushInputs es).perp = s.perp := rfl
@[simp] theorem State.pushInputs_side (es : List Event) : (s.pushInputs es).side = s.side := rfl
@[simp] theorem State.pushInputs_hitcell (es : List Event) : (s.pushInputs es).hitcell = s.hitcell := rfl
@[simp] theorem State.pushInputs_steps (es : List Event) : (s.pushInputs es).steps = s.steps := rfl
@[simp] theorem State.pushInputs_phase (es : List Event) : (s.pushInputs es).phase = s.phase := rfl
@[simp] theorem State.pushInputs_pend (es : List Event) : (s.pushInputs es).pend = s.pend := rfl
@[simp] theorem State.pushInputs_done (es : List Event) : (s.pushInputs es).done = s.done := rfl
@[simp] theorem State.pushInputs_fcode (es : List Event) : (s.pushInputs es).fcode = s.fcode := rfl
@[simp] theorem State.pushInputs_cfg (es : List Event) : (s.pushInputs es).cfg = s.cfg := rfl
@[simp] theorem State.pushInputs_inputs (es : List Event) : (s.pushInputs es).inputs = es ++ s.inputs := rfl
@[simp] theorem State.pushInputs_reads (es : List Event) : (s.pushInputs es).reads = s.reads := rfl

/-! ### dropEvent: an event taken off -/

@[simp] theorem State.dropEvent_posx : s.dropEvent.posx = s.posx := rfl
@[simp] theorem State.dropEvent_posy : s.dropEvent.posy = s.posy := rfl
@[simp] theorem State.dropEvent_angle : s.dropEvent.angle = s.angle := rfl
@[simp] theorem State.dropEvent_column : s.dropEvent.column = s.column := rfl
@[simp] theorem State.dropEvent_row : s.dropEvent.row = s.row := rfl
@[simp] theorem State.dropEvent_arg : s.dropEvent.arg = s.arg := rfl
@[simp] theorem State.dropEvent_result : s.dropEvent.result = s.result := rfl
@[simp] theorem State.dropEvent_glyph : s.dropEvent.glyph = s.glyph := rfl
@[simp] theorem State.dropEvent_data0 : s.dropEvent.data0 = s.data0 := rfl
@[simp] theorem State.dropEvent_data1 : s.dropEvent.data1 = s.data1 := rfl
@[simp] theorem State.dropEvent_rayx : s.dropEvent.rayx = s.rayx := rfl
@[simp] theorem State.dropEvent_rayy : s.dropEvent.rayy = s.rayy := rfl
@[simp] theorem State.dropEvent_perp : s.dropEvent.perp = s.perp := rfl
@[simp] theorem State.dropEvent_side : s.dropEvent.side = s.side := rfl
@[simp] theorem State.dropEvent_hitcell : s.dropEvent.hitcell = s.hitcell := rfl
@[simp] theorem State.dropEvent_steps : s.dropEvent.steps = s.steps := rfl
@[simp] theorem State.dropEvent_phase : s.dropEvent.phase = s.phase := rfl
@[simp] theorem State.dropEvent_pend : s.dropEvent.pend = s.pend := rfl
@[simp] theorem State.dropEvent_done : s.dropEvent.done = s.done := rfl
@[simp] theorem State.dropEvent_fcode : s.dropEvent.fcode = s.fcode := rfl
@[simp] theorem State.dropEvent_cfg : s.dropEvent.cfg = s.cfg := rfl
@[simp] theorem State.dropEvent_inputs : s.dropEvent.inputs = s.inputs.tail := rfl
@[simp] theorem State.dropEvent_reads : s.dropEvent.reads = s.reads := rfl

/-! ### withPending: a pending command -/

@[simp] theorem State.withPending_posx (v : Byte) : (s.withPending v).posx = s.posx := rfl
@[simp] theorem State.withPending_posy (v : Byte) : (s.withPending v).posy = s.posy := rfl
@[simp] theorem State.withPending_angle (v : Byte) : (s.withPending v).angle = s.angle := rfl
@[simp] theorem State.withPending_column (v : Byte) : (s.withPending v).column = s.column := rfl
@[simp] theorem State.withPending_row (v : Byte) : (s.withPending v).row = s.row := rfl
@[simp] theorem State.withPending_arg (v : Byte) : (s.withPending v).arg = s.arg := rfl
@[simp] theorem State.withPending_result (v : Byte) : (s.withPending v).result = s.result := rfl
@[simp] theorem State.withPending_glyph (v : Byte) : (s.withPending v).glyph = s.glyph := rfl
@[simp] theorem State.withPending_data0 (v : Byte) : (s.withPending v).data0 = s.data0 := rfl
@[simp] theorem State.withPending_data1 (v : Byte) : (s.withPending v).data1 = s.data1 := rfl
@[simp] theorem State.withPending_rayx (v : Byte) : (s.withPending v).rayx = s.rayx := rfl
@[simp] theorem State.withPending_rayy (v : Byte) : (s.withPending v).rayy = s.rayy := rfl
@[simp] theorem State.withPending_perp (v : Byte) : (s.withPending v).perp = s.perp := rfl
@[simp] theorem State.withPending_side (v : Byte) : (s.withPending v).side = s.side := rfl
@[simp] theorem State.withPending_hitcell (v : Byte) : (s.withPending v).hitcell = s.hitcell := rfl
@[simp] theorem State.withPending_steps (v : Byte) : (s.withPending v).steps = s.steps := rfl
@[simp] theorem State.withPending_phase (v : Byte) : (s.withPending v).phase = .busy := rfl
@[simp] theorem State.withPending_pend (v : Byte) : (s.withPending v).pend = v := rfl
@[simp] theorem State.withPending_done (v : Byte) : (s.withPending v).done = false := rfl
@[simp] theorem State.withPending_fcode (v : Byte) : (s.withPending v).fcode = s.fcode := rfl
@[simp] theorem State.withPending_cfg (v : Byte) : (s.withPending v).cfg = s.cfg := rfl
@[simp] theorem State.withPending_inputs (v : Byte) : (s.withPending v).inputs = .engine :: s.inputs := rfl
@[simp] theorem State.withPending_reads (v : Byte) : (s.withPending v).reads = s.reads := rfl

/-! ### commitCast: the commit of a cast -/

@[simp] theorem State.commitCast_posx (o : CastOut) : (s.commitCast o).posx = s.posx := rfl
@[simp] theorem State.commitCast_posy (o : CastOut) : (s.commitCast o).posy = s.posy := rfl
@[simp] theorem State.commitCast_angle (o : CastOut) : (s.commitCast o).angle = s.angle := rfl
@[simp] theorem State.commitCast_column (o : CastOut) : (s.commitCast o).column = s.column := rfl
@[simp] theorem State.commitCast_row (o : CastOut) : (s.commitCast o).row = s.row := rfl
@[simp] theorem State.commitCast_arg (o : CastOut) : (s.commitCast o).arg = s.arg := rfl
@[simp] theorem State.commitCast_result (o : CastOut) : (s.commitCast o).result = o.result := rfl
@[simp] theorem State.commitCast_glyph (o : CastOut) : (s.commitCast o).glyph = s.glyph := rfl
@[simp] theorem State.commitCast_data0 (o : CastOut) : (s.commitCast o).data0 = s.data0 := rfl
@[simp] theorem State.commitCast_data1 (o : CastOut) : (s.commitCast o).data1 = s.data1 := rfl
@[simp] theorem State.commitCast_rayx (o : CastOut) : (s.commitCast o).rayx = o.rayx := rfl
@[simp] theorem State.commitCast_rayy (o : CastOut) : (s.commitCast o).rayy = o.rayy := rfl
@[simp] theorem State.commitCast_perp (o : CastOut) : (s.commitCast o).perp = o.perp := rfl
@[simp] theorem State.commitCast_side (o : CastOut) : (s.commitCast o).side = o.side := rfl
@[simp] theorem State.commitCast_hitcell (o : CastOut) : (s.commitCast o).hitcell = o.hitcell := rfl
@[simp] theorem State.commitCast_steps (o : CastOut) : (s.commitCast o).steps = o.steps := rfl
@[simp] theorem State.commitCast_phase (o : CastOut) : (s.commitCast o).phase = s.phase := rfl
@[simp] theorem State.commitCast_pend (o : CastOut) : (s.commitCast o).pend = s.pend := rfl
@[simp] theorem State.commitCast_done (o : CastOut) : (s.commitCast o).done = s.done := rfl
@[simp] theorem State.commitCast_fcode (o : CastOut) : (s.commitCast o).fcode = s.fcode := rfl
@[simp] theorem State.commitCast_cfg (o : CastOut) : (s.commitCast o).cfg = s.cfg := rfl
@[simp] theorem State.commitCast_inputs (o : CastOut) : (s.commitCast o).inputs = s.inputs := rfl
@[simp] theorem State.commitCast_reads (o : CastOut) : (s.commitCast o).reads = s.reads := rfl

/-! ### resetEvent: every register at its reset value (R36) -/

@[simp] theorem State.resetEvent_posx : s.resetEvent.posx = s.cfg.startPosx := rfl
@[simp] theorem State.resetEvent_posy : s.resetEvent.posy = s.cfg.startPosy := rfl
@[simp] theorem State.resetEvent_angle : s.resetEvent.angle = s.cfg.startAngle := rfl
@[simp] theorem State.resetEvent_column : s.resetEvent.column = 0 := rfl
@[simp] theorem State.resetEvent_row : s.resetEvent.row = 0 := rfl
@[simp] theorem State.resetEvent_arg : s.resetEvent.arg = 0 := rfl
@[simp] theorem State.resetEvent_result : s.resetEvent.result = 0 := rfl
@[simp] theorem State.resetEvent_glyph : s.resetEvent.glyph = 0 := rfl
@[simp] theorem State.resetEvent_data0 : s.resetEvent.data0 = 0 := rfl
@[simp] theorem State.resetEvent_data1 : s.resetEvent.data1 = 0 := rfl
@[simp] theorem State.resetEvent_rayx : s.resetEvent.rayx = 0 := rfl
@[simp] theorem State.resetEvent_rayy : s.resetEvent.rayy = 0 := rfl
@[simp] theorem State.resetEvent_perp : s.resetEvent.perp = 0 := rfl
@[simp] theorem State.resetEvent_side : s.resetEvent.side = 0 := rfl
@[simp] theorem State.resetEvent_hitcell : s.resetEvent.hitcell = 0 := rfl
@[simp] theorem State.resetEvent_steps : s.resetEvent.steps = 0 := rfl
@[simp] theorem State.resetEvent_phase : s.resetEvent.phase = .idle := rfl
@[simp] theorem State.resetEvent_pend : s.resetEvent.pend = 0 := rfl
@[simp] theorem State.resetEvent_done : s.resetEvent.done = false := rfl
@[simp] theorem State.resetEvent_fcode : s.resetEvent.fcode = 0 := rfl
@[simp] theorem State.resetEvent_cfg : s.resetEvent.cfg = s.cfg := rfl
@[simp] theorem State.resetEvent_inputs : s.resetEvent.inputs = s.inputs := rfl
@[simp] theorem State.resetEvent_reads : s.resetEvent.reads = s.reads := rfl

/-! ### the three updates compose -/

@[simp] theorem State.completed_completed : s.completed.completed = s.completed := rfl
@[simp] theorem State.raiseFault_raiseFault (j k : FaultCode) : (s.raiseFault j).raiseFault k = s.raiseFault k := rfl
@[simp] theorem State.resetEvent_raiseFault (k : FaultCode) : (s.raiseFault k).resetEvent = s.resetEvent := rfl
@[simp] theorem State.resetEvent_completed : s.completed.resetEvent = s.resetEvent := rfl

end Sys2Proof.Machine
end

