-- ==== Sys2Proof/Laws/Ops.lean ====
section
/-! SUPPORT. Everything a shared operation can do, said once: how a command ends, what a host write, an accept and a poll round can
leave, and what a step can be. -/

namespace Sys2Proof.Machine

theorem FaultCode.code_ne_zero (k : FaultCode) : k.code ≠ 0 := by
  cases k <;> decide

theorem FaultCode.code_le (k : FaultCode) : k.code.toNat ≤ 7 := by
  cases k <;> decide

theorem FaultCode.code_injective {j k : FaultCode} (h : j.code = k.code) : j = k := by
  cases j <;> cases k <;> first | rfl | exact absurd h (by decide)

@[simp] theorem perform_ok (s t : State) : perform s (.ok t) = .next t.completed := rfl

@[simp] theorem perform_error (s : State) (k : FaultCode) : perform s (.error k) = .next (s.raiseFault k) := rfl

/-- A command ends in one of two ways. -/
theorem perform_cases {s t : State} {r : Except FaultCode State} (h : perform s r = .next t) :
    (∃ u, r = .ok u ∧ t = u.completed) ∨ (∃ k, r = .error k ∧ t = s.raiseFault k) := by
  cases r with
  | ok u => exact .inl ⟨u, rfl, by simpa using h.symm⟩
  | error k => exact .inr ⟨k, rfl, by simpa using h.symm⟩

theorem accept_of_command {s : State} {v : Byte} {i : Instr} (h : decode v = .command i) :
    s.accept v = { s with pend := v, done := false, phase := .busy } := by
  simp [State.accept, h]

theorem accept_of_reserved {s : State} {v : Byte} (h : decode v = .reserved) : s.accept v = s.raiseFault .illCmd := by
  simp [State.accept, h]

/-- A write while idle stores into one register, or is an accept, or does nothing. -/
theorem writeReg_keeps_sequencer {s : State} {r : Reg} {v : Byte} (h : r ≠ .cmd) :
    (s.writeReg r v).phase = s.phase ∧ (s.writeReg r v).done = s.done ∧ (s.writeReg r v).fcode = s.fcode ∧
      (s.writeReg r v).pend = s.pend ∧ (s.writeReg r v).glyph = s.glyph ∧ (s.writeReg r v).steps = s.steps ∧
      (s.writeReg r v).cfg = s.cfg ∧ (s.writeReg r v).inputs = s.inputs ∧ (s.writeReg r v).reads = s.reads := by
  cases r <;> simp_all [State.writeReg]

theorem hostWrite_of_faulted {s : State} (a : RegAddr) (v : Byte) (h : s.phase = .faulted) : s.hostWrite a v = s := by
  simp [State.hostWrite, h]

theorem hostWrite_of_busy {s : State} (a : RegAddr) (v : Byte) (h : s.phase = .busy) :
    s.hostWrite a v = s.raiseFault .busyWr := by
  simp [State.hostWrite, h]

/-- Everything a host write can do: nothing, a `BUSYWR`, an accept, or a store into a register other than CMD. -/
theorem hostWrite_cases (s : State) (a : RegAddr) (v : Byte) :
    s.hostWrite a v = s ∨ (s.phase = .busy ∧ s.hostWrite a v = s.raiseFault .busyWr) ∨
      (s.phase = .idle ∧ ((s.hostWrite a v = s.accept v) ∨ ∃ r, r ≠ .cmd ∧ s.hostWrite a v = s.writeReg r v)) := by
  unfold State.hostWrite
  cases hp : s.phase with
  | faulted => exact .inl rfl
  | busy => exact .inr (.inl ⟨rfl, rfl⟩)
  | idle =>
    cases hr : regAt a with
    | none => exact .inl rfl
    | some r =>
      by_cases hc : r = .cmd
      · subst hc; exact .inr (.inr ⟨rfl, .inl rfl⟩)
      · exact .inr (.inr ⟨rfl, .inr ⟨r, hc, rfl⟩⟩)

/-- A poll round only reads STATUS and puts what is left of the loop in front. -/
theorem pollOnce_eq (s : State) (n : Nat) :
    s.pollOnce n = { s with inputs := pollRest s.phase n ++ s.inputs, reads := s.reads ++ [s.status] } := rfl

theorem pollRest_of_not_busy {p : Phase} (n : Nat) (h : p ≠ .busy) : pollRest p n = [] := by
  cases p <;> simp_all [pollRest]

@[simp] theorem nextEvent_of_nil {s : State} (h : s.inputs = []) : s.nextEvent = .engine := by
  simp [State.nextEvent, h]

@[simp] theorem nextEvent_of_cons {s : State} {e : Event} {es : List Event} (h : s.inputs = e :: es) :
    s.nextEvent = e := by
  simp [State.nextEvent, h]

theorem step_of_cons {s : State} {e : Event} {es : List Event} (h : s.inputs = e :: es) :
    step s = takeEvent e { s with inputs := es } := by
  simp [step, nextEvent_of_cons h, State.dropEvent, h]

theorem step_of_nil {s : State} (h : s.inputs = []) : step s = complete s := by
  have : s.dropEvent = s := by
    cases s
    simp_all [State.dropEvent]
  simp [step, takeEvent, nextEvent_of_nil h, this]

theorem complete_of_not_busy {s : State} (h : s.phase ≠ .busy) : complete s = .next s := by
  unfold complete
  cases hp : s.phase <;> simp_all

theorem complete_of_command {s : State} {i : Instr} (h : s.phase = .busy) (hd : decode s.pend = .command i) :
    complete s = exec i s := by
  simp [complete, h, hd]

/-- Everything an event can do. -/
theorem takeEvent_cases {e : Event} {s t : State} (h : takeEvent e s = .next t) :
    (e = .engine ∧ s.phase ≠ .busy ∧ t = s) ∨
    (e = .engine ∧ s.phase = .busy ∧ ∃ i, decode s.pend = .command i ∧ exec i s = .next t) ∨
    (∃ a, e = .read a ∧ t = s.logRead (s.hostRead a)) ∨
    (∃ a v, e = .write a v ∧ t = s.hostWrite a v) ∨
    (e = .reset ∧ t = s.resetEvent) ∨
    (∃ n, e = .poll n ∧ t = s.pollOnce n) := by
  cases e with
  | engine =>
    by_cases hb : s.phase = .busy
    · cases hd : decode s.pend with
      | command i =>
        refine .inr (.inl ⟨rfl, hb, i, rfl, ?_⟩)
        rwa [takeEvent, complete_of_command hb hd] at h
      | reserved => simp [takeEvent, complete, hb, hd] at h
    · rw [takeEvent, complete_of_not_busy hb] at h
      exact .inl ⟨rfl, hb, by simpa using h.symm⟩
  | read a => exact .inr (.inr (.inl ⟨a, rfl, by simpa [takeEvent] using h.symm⟩))
  | write a v => exact .inr (.inr (.inr (.inl ⟨a, v, rfl, by simpa [takeEvent] using h.symm⟩)))
  | reset => exact .inr (.inr (.inr (.inr (.inl ⟨rfl, by simpa [takeEvent] using h.symm⟩))))
  | poll n => exact .inr (.inr (.inr (.inr (.inr ⟨n, rfl, by simpa [takeEvent] using h.symm⟩))))

end Sys2Proof.Machine
end

