-- ==== Sys2Proof/Laws/Raycast.lean ====
section
/-! SUPPORT. The cast's machine reading and its integer reading side by side: one lemma for each stage, up to what the whole walk can
leave (`walk_spec`) and what the whole cast can answer (`castColumn_spec`). -/

namespace Sys2Proof.Machine

/-! ### The machine's values as integers -/

def StepDir.int : StepDir → Int
  | .plus => 1
  | .minus => -1

def AxisRun.int (r : AxisRun) : IntAxis :=
  { delta := r.delta.toNat, dir := r.step.int, side := r.side.toNat }

def Active.intX : Active → Option IntAxis
  | .xOnly x => some x.int
  | .yOnly _ => none
  | .both x _ => some x.int

def Active.intY : Active → Option IntAxis
  | .xOnly _ => none
  | .yOnly y => some y.int
  | .both _ y => some y.int

def Walk.int (w : Walk) : IntWalk :=
  { mx := w.mapX.toNat, my := w.mapY.toNat, x := w.active.intX, y := w.active.intY }

/-! ### Ray, dispatch and setup -/

theorem columnFactor_toInt (c : BitVec 6) : (columnFactor c).toInt = 2 * (c.toNat : Int) - 64 := by
  have := c.isLt
  simp only [columnFactor, BitVec.toInt_ofInt]
  rw [Int.bmod_eq_of_le (by norm_num; omega) (by norm_num; omega)]

theorem rayGen_int (c : Cfg) (angle column : BitVec 6) :
    (rayGen c angle column).x.toInt = (intRay c angle column).1 ∧
      (rayGen c angle column).y.toInt = (intRay c angle column).2 := by
  simp only [rayGen, intRay, narrowSum_toInt, div64_toInt, (mul8x8_toInt _ _).1, columnFactor_toInt, neg8_toInt, readDir]
  trivial

theorem axisRun_int (c : Cfg) (r p : Byte) (h : r ≠ 0) : intAxis c r.toInt p = some (axisRun c r p).int := by
  have h0 : r.toInt ≠ 0 := fun h' => h ((byte_toInt_eq_zero r).1 h')
  have hb := byte_toInt_bounds r
  unfold intAxis
  rw [if_neg h0]
  have hd : c.recip[r.toInt.natAbs]?.getD 0 = readRecip c (abs8 r) := by
    have : r.toInt.natAbs < 256 := by omega
    rw [Vector.getElem?_eq_getElem this]
    simp [readRecip, abs8_toNat]
  rw [hd]
  have hp : p.toNat % 32 < 32 := Nat.mod_lt _ (by norm_num)
  simp only [axisRun, AxisRun.int, stepOf]
  by_cases hs : 0 < r.toInt
  · simp only [hs, if_true, edgeOf, Config.cellUnits, offOf_toNat, StepDir.int]
    rw [(scale32_toNat _ _ (by omega)).1, Int.sign_eq_one_of_pos hs]
  · simp only [hs, if_false, edgeOf, offOf_toNat, StepDir.int]
    rw [(scale32_toNat _ _ (by omega)).1, Int.sign_eq_neg_one_of_neg (by omega)]

/-- Dispatch faults exactly on the ray (0, 0), and otherwise starts the walk that the integer reading starts. -/
theorem dispatch_cases (c : Cfg) (angle column : BitVec 6) (posx posy : Byte) :
    (intRay c angle column = (0, 0) ∧ dispatch c (rayGen c angle column) posx posy = .error .recipZ) ∨
    (intRay c angle column ≠ (0, 0) ∧ ∃ a, dispatch c (rayGen c angle column) posx posy = .ok a ∧
      (setup posx posy a).int = intStart c posx posy angle column) := by
  have ⟨hx, hy⟩ := rayGen_int c angle column
  unfold dispatch
  set r := rayGen c angle column
  by_cases h0 : r.x = 0
  · by_cases h1 : r.y = 0
    · refine .inl ⟨?_, by rw [if_pos ⟨h0, h1⟩]⟩
      rw [Prod.ext_iff, ← hx, ← hy, h0, h1]
      simp
    · refine .inr ⟨?_, .yOnly (axisRun c r.y posy), by rw [if_neg (by tauto), if_pos h0], ?_⟩
      · intro h
        rw [h] at hy
        exact h1 ((byte_toInt_eq_zero _).1 hy)
      · simp only [setup, Walk.int, intStart, ← hx, ← hy, cellOf_toNat, Active.intX, Active.intY,
          axisRun_int c r.y posy h1]
        simp [h0, intAxis]
  · by_cases h1 : r.y = 0
    · refine .inr ⟨?_, .xOnly (axisRun c r.x posx), by rw [if_neg (by tauto), if_neg h0, if_pos h1], ?_⟩
      · intro h
        rw [h] at hx
        exact h0 ((byte_toInt_eq_zero _).1 hx)
      · simp only [setup, Walk.int, intStart, ← hx, ← hy, cellOf_toNat, Active.intX, Active.intY,
          axisRun_int c r.x posx h0]
        simp [h1, intAxis]
    · refine .inr ⟨?_, .both (axisRun c r.x posx) (axisRun c r.y posy),
        by rw [if_neg (by tauto), if_neg h0, if_neg h1], ?_⟩
      · intro h
        rw [h] at hx
        exact h0 ((byte_toInt_eq_zero _).1 hx)
      · simp only [setup, Walk.int, intStart, ← hx, ← hy, cellOf_toNat, Active.intX, Active.intY,
          axisRun_int c r.x posx h0, axisRun_int c r.y posy h1]
        push_cast
        rfl

/-! ### One step of the walk -/

theorem takesX_int (w : Walk) : w.int.takesX = decide (w.active.choice = .x) := by
  cases h : w.active <;>
    simp [Walk.int, IntWalk.takesX, h, Active.intX, Active.intY, Active.choice, AxisRun.int, lt8]

theorem chosen_int (w : Walk) : w.int.chosen = some w.active.chosen.int := by
  unfold IntWalk.chosen
  rw [takesX_int]
  cases h : w.active <;> simp [Walk.int, h, Active.intX, Active.intY, Active.choice, Active.chosen]
  rename_i x y
  by_cases hl : lt8 x.side y.side <;> simp [hl]

theorem accumulate_side (r : AxisRun) (h : ¬256 ≤ r.side.toNat + r.delta.toNat) :
    r.accumulate.int = { r.int with side := r.int.side + r.int.delta } := by
  simp only [AxisRun.accumulate, AxisRun.int, add8_fst, BitVec.toNat_add]
  congr 1
  omega

theorem intCell_nat (c : Cfg) (mx my : BitVec 3) : intCell c mx.toNat my.toNat = some (readGrid c mx my) := by
  have h1 := mx.isLt
  have h2 := my.isLt
  simp [intCell, readGrid]
  rw [Vector.getElem?_eq_getElem h2]
  simp only [Option.bind_some]
  rw [Vector.getElem?_eq_getElem h1]

theorem intCell_out (c : Cfg) (mx my : Int) (h : mx < 0 ∨ 7 < mx ∨ my < 0 ∨ 7 < my) : intCell c mx my = none := by
  unfold intCell
  split
  · rename_i hp
    by_cases hy : my ≤ 7
    · have hx : 8 ≤ mx.toNat := by omega
      have : my.toNat < 8 := by omega
      rw [Vector.getElem?_eq_getElem this]
      simp [Vector.getElem?_eq_none (xs := c.grid[my.toNat]) hx]
    · have : 8 ≤ my.toNat := by omega
      simp [Vector.getElem?_eq_none (xs := c.grid) this]
  · rfl

/-- The cell index after a step. -/
theorem advance_some {m m' : BitVec 3} {d : StepDir} (h : advance m d = some m') :
    (m'.toNat : Int) = m.toNat + d.int := by
  cases d <;> simp only [advance] at h <;> split at h <;> simp at h <;> subst h <;>
    simp [StepDir.int, BitVec.toNat_ofNat] <;> omega

theorem advance_none {m : BitVec 3} {d : StepDir} (h : advance m d = none) :
    (m.toNat : Int) + d.int < 0 ∨ 7 < (m.toNat : Int) + d.int := by
  cases d <;> simp only [advance] at h <;> split at h <;> simp at h <;> simp [StepDir.int] <;> omega

theorem moved_pos (w : Walk) {m : BitVec 3} (h : advance (w.map w.active.choice) w.active.chosen.step = some m) :
    (w.int.moved w.active.chosen.int).mx = (w.moved m).mapX.toNat ∧
      (w.int.moved w.active.chosen.int).my = (w.moved m).mapY.toNat := by
  have ha := advance_some h
  unfold IntWalk.moved
  rw [takesX_int]
  cases hc : w.active.choice <;> simp [Walk.moved, hc, Walk.int, AxisRun.int] at * <;> simp [Walk.map, ha]

theorem moved_int (w : Walk) {m : BitVec 3} (h : advance (w.map w.active.choice) w.active.chosen.step = some m)
    (hc : ¬256 ≤ w.active.chosen.side.toNat + w.active.chosen.delta.toNat) :
    (w.moved m).int = w.int.moved w.active.chosen.int := by
  have hp := moved_pos w h
  have : ∀ a b : IntWalk, a.mx = b.mx → a.my = b.my → a.x = b.x → a.y = b.y → a = b := by
    rintro ⟨⟩ ⟨⟩ rfl rfl rfl rfl
    rfl
  refine this _ _ hp.1.symm hp.2.symm ?_ ?_
  all_goals
    unfold IntWalk.moved
    rw [takesX_int]
    cases ha : w.active with
    | xOnly x =>
      simp [ha, Active.chosen] at hc
      simp [Walk.int, Walk.moved, ha, Active.choice, Active.accumulate, Active.intX, Active.intY, Active.chosen,
        accumulate_side, hc]
    | yOnly y =>
      simp [ha, Active.chosen] at hc
      simp [Walk.int, Walk.moved, ha, Active.choice, Active.accumulate, Active.intX, Active.intY, Active.chosen,
        accumulate_side, hc]
    | both x y =>
      by_cases hl : lt8 x.side y.side <;> simp [ha, Active.chosen, hl] at hc <;>
        simp [Walk.int, Walk.moved, ha, Active.choice, Active.accumulate, Active.intX, Active.intY, Active.chosen, hl,
          accumulate_side, hc]

theorem entered_some (c : Cfg) (w : Walk) {m : BitVec 3}
    (h : advance (w.map w.active.choice) w.active.chosen.step = some m) :
    w.int.entered c w.active.chosen.int = some (readGrid c (w.moved m).mapX (w.moved m).mapY) := by
  unfold IntWalk.entered
  rw [(moved_pos w h).1, (moved_pos w h).2, intCell_nat]

theorem entered_none (c : Cfg) (w : Walk) (h : advance (w.map w.active.choice) w.active.chosen.step = none) :
    w.int.entered c w.active.chosen.int = none := by
  have := advance_none h
  apply intCell_out
  unfold IntWalk.moved
  rw [takesX_int]
  cases hc : w.active.choice <;> simp [hc, Walk.int, AxisRun.int, Walk.map] at * <;> omega

/-- A step that reaches a wall. -/
theorem step_hit {c : Cfg} {w : Walk} {e : WalkEnd} (h : w.step c = .hit e) :
    ∃ m, advance (w.map w.active.choice) w.active.chosen.step = some m ∧
      readGrid c (w.moved m).mapX (w.moved m).mapY = .wall ∧ e = w.ended m := by
  unfold Walk.step at h
  cases had : advance (w.map w.active.choice) w.active.chosen.step with
  | none => simp [had] at h
  | some m =>
    simp only [had] at h
    cases hg : readGrid c (w.moved m).mapX (w.moved m).mapY with
    | wall => exact ⟨m, rfl, hg, by simpa [hg] using h.symm⟩
    | floor =>
      rw [hg] at h
      by_cases hc : carryOut w.active.chosen.side w.active.chosen.delta <;> simp [hc] at h

/-- A step the walk goes on after. -/
theorem step_goOn {c : Cfg} {w t : Walk} (h : w.step c = .goOn t) :
    ∃ m, advance (w.map w.active.choice) w.active.chosen.step = some m ∧
      readGrid c (w.moved m).mapX (w.moved m).mapY = .floor ∧
      carryOut w.active.chosen.side w.active.chosen.delta = false ∧ t = w.moved m := by
  unfold Walk.step at h
  cases had : advance (w.map w.active.choice) w.active.chosen.step with
  | none => simp [had] at h
  | some m =>
    simp only [had] at h
    cases hg : readGrid c (w.moved m).mapX (w.moved m).mapY with
    | wall => simp [hg] at h
    | floor =>
      rw [hg] at h
      by_cases hc : carryOut w.active.chosen.side w.active.chosen.delta
      · simp [hc] at h
      · exact ⟨m, rfl, hg, by simpa using hc, by simpa [hc] using h.symm⟩

/-- The correction takes back the last accumulation, whether or not it carried. -/
theorem correct_ended (w : Walk) (m : BitVec 3) :
    correct (w.ended m).side (w.ended m).delta = w.active.chosen.side := by
  simp [Walk.ended, correct, sub8_fst, AxisRun.accumulate, add8_fst]

/-! ### The length of the walk -/

/-- Steps left before a cell index reaches the edge it moves towards. -/
def stepsLeft (m : BitVec 3) : StepDir → Nat
  | .plus => 7 - m.toNat
  | .minus => m.toNat

/-- Steps left before the walk leaves the grid at the latest. -/
def Walk.left (w : Walk) : Nat :=
  match w.active with
  | .xOnly x => stepsLeft w.mapX x.step
  | .yOnly y => stepsLeft w.mapY y.step
  | .both x y => stepsLeft w.mapX x.step + stepsLeft w.mapY y.step

theorem stepsLeft_advance {m m' : BitVec 3} {d : StepDir} (h : advance m d = some m') :
    stepsLeft m' d + 1 = stepsLeft m d := by
  have := advance_some h
  have := m'.isLt
  cases d <;> simp [stepsLeft, StepDir.int] at * <;> omega

theorem left_moved (w : Walk) {m : BitVec 3} (h : advance (w.map w.active.choice) w.active.chosen.step = some m) :
    (w.moved m).left + 1 = w.left := by
  cases ha : w.active with
  | xOnly x =>
    simp [ha, Active.choice, Active.chosen, Walk.map] at h
    have := stepsLeft_advance h
    simp [Walk.left, Walk.moved, ha, Active.accumulate, Active.choice, AxisRun.accumulate, this]
  | yOnly y =>
    simp [ha, Active.choice, Active.chosen, Walk.map] at h
    have := stepsLeft_advance h
    simp [Walk.left, Walk.moved, ha, Active.accumulate, Active.choice, AxisRun.accumulate, this]
  | both x y =>
    by_cases hl : lt8 x.side y.side <;> simp [ha, Active.choice, Active.chosen, Walk.map, hl] at h <;>
      have := stepsLeft_advance h <;>
      simp [Walk.left, Walk.moved, ha, Active.accumulate, Active.choice, AxisRun.accumulate, hl] <;> omega

theorem left_le (w : Walk) : w.left ≤ 14 := by
  have : ∀ (m : BitVec 3) d, stepsLeft m d ≤ 7 := by
    intro m d
    have := m.isLt
    cases d <;> simp [stepsLeft]
    omega
  unfold Walk.left
  cases w.active with
  | xOnly x => have := this w.mapX x.step; simp only; omega
  | yOnly y => have := this w.mapY y.step; simp only; omega
  | both x y => have h3 := this w.mapX x.step; have h4 := this w.mapY y.step; simp only; omega

theorem left_lt_fuel (w : Walk) : w.left < walkFuel := by
  have := left_le w
  unfold walkFuel
  omega

/-! ### The whole walk -/

/-- What the walk leaves is what the integer walk reaches, narrowed to the machine's widths. -/
structure EndMatches (w : Walk) (e : WalkEnd) (E : IntEnd) : Prop where
  mx : (e.mapX.toNat : Int) = E.mx
  my : (e.mapY.toNat : Int) = E.my
  last : E.lastY = decide (e.last = .y)
  side : e.side = BitVec.ofNat 8 E.side
  delta : e.delta.toNat = E.delta
  perp : (correct e.side e.delta).toNat = E.perp
  steps : e.steps = w.steps + BitVec.ofNat 4 E.steps
  pos : 1 ≤ E.steps
  le : E.steps ≤ w.left

/-- Everything the walk can answer, given fuel for the steps left. -/
theorem walk_spec (c : Cfg) : ∀ (n : Nat) (w : Walk), w.left < n →
    (∃ e E, walk c n w = .ok e ∧ w.int.Ends c E ∧ EndMatches w e E) ∨
      (∃ f, walk c n w = .error f ∧ w.int.Fails c f) := by
  intro n
  induction n with
  | zero => intro w h; omega
  | succ n ih =>
    intro w hn
    unfold walk Walk.step
    cases had : advance (w.map w.active.choice) w.active.chosen.step with
    | none => exact .inr ⟨_, rfl, .leaves _ _ (chosen_int w) (entered_none c w had)⟩
    | some m =>
      have hent := entered_some c w had
      have hl := left_moved w had
      simp only
      cases hg : readGrid c (w.moved m).mapX (w.moved m).mapY with
      | wall =>
        rw [hg] at hent
        refine .inl ⟨_, _, rfl, .hit _ _ (chosen_int w) hent, ?_⟩
        have hp := moved_pos w had
        refine ⟨by simp [Walk.ended, hp.1], by simp [Walk.ended, hp.2], ?_, ?_, rfl, ?_, rfl, le_refl _,
          by show 1 ≤ _; omega⟩
        · rw [takesX_int]
          exact (fun (q : Axis) => by cases q <;> rfl : ∀ q : Axis, (!decide (q = .x)) = decide (q = .y)) _
        · simp [Walk.ended, AxisRun.accumulate, add8, AxisRun.int]
        · rw [correct_ended]
          simp [IntEnd.perp, AxisRun.int]
      | floor =>
        rw [hg] at hent
        by_cases hc : 256 ≤ w.active.chosen.side.toNat + w.active.chosen.delta.toNat
        · exact .inr ⟨.sideOvf, by simp [carryOut, hc], .carries _ _ (chosen_int w) hent hc⟩
        · simp only [carryOut, hc, decide_false]
          have hmi := moved_int w had hc
          have hc' : w.active.chosen.int.side + w.active.chosen.int.delta < 256 := by simpa [AxisRun.int] using hc
          rcases ih (w.moved m) (by omega) with ⟨e, E, h1, h2, h3⟩ | ⟨f, h1, h2⟩
          · refine .inl ⟨e, _, h1, .goOn _ _ E (chosen_int w) hent hc' (hmi ▸ h2), ?_⟩
            refine ⟨h3.mx, h3.my, h3.last, h3.side, h3.delta, ?_, ?_, by simp, ?_⟩
            · simpa [IntEnd.perp] using h3.perp
            · rw [h3.steps]
              simp [Walk.moved]
              apply BitVec.eq_of_toNat_eq
              simp
              omega
            · have := h3.le
              simp
              omega
          · exact .inr ⟨f, h1, .goOn _ _ f (chosen_int w) hent hc' (hmi ▸ h2)⟩

/-! ### The integer walk is a partial function -/

theorem ends_unique {c : Cfg} {w : IntWalk} {e e' : IntEnd} (h : w.Ends c e) (h' : w.Ends c e') : e = e' := by
  induction h generalizing e' with
  | hit w a h1 h2 => cases h' <;> simp_all
  | goOn w a e h1 h2 h3 h4 ih =>
    cases h' with
    | hit _ a' g1 g2 => simp_all
    | goOn _ a' e2 g1 g2 g3 g4 =>
      obtain rfl : a = a' := by simpa [h1] using g1
      rw [ih g4]

theorem ends_fails {c : Cfg} {w : IntWalk} {e : IntEnd} {f : FaultCode} (h : w.Ends c e) (h' : w.Fails c f) : False := by
  induction h with
  | hit w a h1 h2 => cases h' <;> simp_all
  | goOn w a e h1 h2 h3 h4 ih =>
    cases h' with
    | leaves _ a' g1 g2 => simp_all
    | carries _ a' g1 g2 =>
      obtain rfl : a = a' := by simpa [h1] using g1
      omega
    | goOn _ a' e2 g1 g2 g3 g4 =>
      obtain rfl : a = a' := by simpa [h1] using g1
      exact ih g4

theorem fails_unique {c : Cfg} {w : IntWalk} {f f' : FaultCode} (h : w.Fails c f) (h' : w.Fails c f') : f = f' := by
  induction h with
  | leaves w a h1 h2 => cases h' <;> simp_all
  | carries w a h1 h2 h3 =>
    cases h' with
    | leaves _ a' g1 g2 => simp_all
    | carries _ a' g1 g2 => rfl
    | goOn _ a' e2 g1 g2 g3 g4 =>
      obtain rfl : a = a' := by simpa [h1] using g1
      omega
  | goOn w a e h1 h2 h3 h4 ih =>
    cases h' with
    | leaves _ a' g1 g2 => simp_all
    | carries _ a' g1 g2 =>
      obtain rfl : a = a' := by simpa [h1] using g1
      omega
    | goOn _ a' e2 g1 g2 g3 g4 =>
      obtain rfl : a = a' := by simpa [h1] using g1
      exact ih g4

/-- A walk breaks off with one of two faults. -/
theorem fails_code {c : Cfg} {w : IntWalk} {f : FaultCode} (h : w.Fails c f) : f = .gridRng ∨ f = .sideOvf := by
  induction h with
  | leaves => exact .inl rfl
  | carries => exact .inr rfl
  | goOn _ _ _ _ _ _ _ ih => exact ih

/-! ### The whole cast -/

/-- What a successful cast commits is what the integer walk gives. -/
theorem commit_eq_afterCast {c : Cfg} {angle column : BitVec 6} {w : Walk} {e : WalkEnd} {E : IntEnd} {h : Byte}
    (hw : w.steps = 0) (g : EndMatches w e E) (hh : h.toNat ≤ 127) (s : State) :
    (s.commitCast
      { result := e.last.flag ++ h.extractLsb' 0 7, rayx := (rayGen c angle column).x
        rayy := (rayGen c angle column).y, perp := correct e.side e.delta, side := e.side
        hitcell := cellIndex e.mapX e.mapY, steps := e.steps }).completed =
      s.afterCast (intRay c angle column) E h := by
  have hp : E.perp < 256 := by rw [← g.perp]; exact (correct e.side e.delta).isLt
  simp only [State.commitCast, State.completed, State.afterCast, State.mk.injEq, and_true, true_and]
  refine ⟨?_, ?_, ?_, ?_, g.side, ?_, ?_⟩
  · apply BitVec.eq_of_toNat_eq
    rw [g.last]
    have h9 : (h.extractLsb' 0 7).toNat = h.toNat % 128 := by simp [BitVec.extractLsb'_toNat]
    cases hl : e.last
    · refine (append_toNat (0#1) (h.extractLsb' 0 7)).trans ?_
      rw [h9]
      simp
      omega
    · refine (append_toNat (1#1) (h.extractLsb' 0 7)).trans ?_
      rw [h9]
      simp
      omega
  · rw [← (rayGen_int c angle column).1]
    simp
  · rw [← (rayGen_int c angle column).2]
    simp
  · apply BitVec.eq_of_toNat_eq
    rw [g.perp]
    simp
    omega
  · rw [← g.mx, ← g.my, cellIndex]
    apply BitVec.eq_of_toNat_eq
    have h1 := e.mapX.isLt
    have h2 := e.mapY.isLt
    have : (8 * (e.mapY.toNat : Int) + e.mapX.toNat) = ((8 * e.mapY.toNat + e.mapX.toNat : Nat) : Int) := by
      push_cast
      ring
    rw [this, BitVec.ofInt_natCast]
    refine (append_toNat e.mapY e.mapX).trans ?_
    simp
    omega
  · rw [g.steps, hw]
    simp

/-- Everything a cast can answer. -/
theorem castColumn_spec (c : Cfg) (posx posy : Byte) (angle column : BitVec 6) :
    (intRay c angle column = (0, 0) ∧ castColumn c posx posy angle column = .error .recipZ) ∨
    (∃ f, (intStart c posx posy angle column).Fails c f ∧ castColumn c posx posy angle column = .error f) ∨
    (∃ E h, (intStart c posx posy angle column).Ends c E ∧ c.height[E.perp]? = some h ∧ 128 ≤ h.toNat ∧
      castColumn c posx posy angle column = .error .hgtRng) ∨
    (∃ E h o, (intStart c posx posy angle column).Ends c E ∧ c.height[E.perp]? = some h ∧ h.toNat ≤ 127 ∧
      castColumn c posx posy angle column = .ok o ∧ E.perp ≤ 255 ∧ 1 ≤ E.steps ∧ E.steps ≤ 14 ∧
      ∀ s : State, (s.commitCast o).completed = s.afterCast (intRay c angle column) E h) := by
  rcases dispatch_cases c angle column posx posy with ⟨h1, h2⟩ | ⟨h1, a, h2, h3⟩
  · exact .inl ⟨h1, by simp [castColumn, h2]; rfl⟩
  · rcases walk_spec c walkFuel (setup posx posy a) (left_lt_fuel _) with ⟨e, E, g1, g2, g3⟩ | ⟨f, g1, g2⟩
    · rw [h3] at g2
      have hp : E.perp < 256 := by rw [← g3.perp]; exact (correct e.side e.delta).isLt
      have hh : c.height[E.perp]? = some (readHeight c (correct e.side e.delta)) := by
        rw [Vector.getElem?_eq_getElem hp]
        simp [readHeight, g3.perp]
      set h := readHeight c (correct e.side e.delta) with hdef
      by_cases h7 : 128 ≤ h.toNat
      · refine .inr (.inr (.inl ⟨E, h, g2, hh, h7, ?_⟩))
        simp only [castColumn, h2, g1, compose, bind, Except.bind, ← hdef, bit7_eq, h7]
        rfl
      · refine .inr (.inr (.inr ⟨E, h, _, g2, hh, by omega, ?_, by omega, g3.pos, le_trans g3.le (left_le _),
          commit_eq_afterCast (c := c) (angle := angle) (column := column) rfl g3 (by omega)⟩))
        simp only [castColumn, h2, g1, compose, bind, Except.bind, ← hdef, bit7_eq, h7, decide_false]
        rfl
    · rw [h3] at g2
      exact .inr (.inl ⟨f, g2, by simp only [castColumn, h2, g1, bind, Except.bind]⟩)

theorem cast_error_code {c : Cfg} {posx posy : Byte} {angle column : BitVec 6} {k : FaultCode}
    (h : castColumn c posx posy angle column = .error k) : 3 ≤ k.code.toNat ∧ k.code.toNat ≤ 6 := by
  rcases castColumn_spec c posx posy angle column with ⟨_, g⟩ | ⟨f, hf, g⟩ | ⟨_, _, _, _, _, g⟩ | ⟨_, _, _, _, _, _, g, _⟩
  · obtain rfl : FaultCode.recipZ = k := by simpa [h] using g.symm
    decide
  · obtain rfl : f = k := by simpa [h] using g.symm
    rcases fails_code hf with rfl | rfl <;> decide
  · obtain rfl : FaultCode.hgtRng = k := by simpa [h] using g.symm
    decide
  · simp [h] at g

end Sys2Proof.Machine
end

