-- ==== Sys2Proof/Laws/Exec.lean ====
section
/-! SUPPORT. Everything `exec` can do, said once for all commands, and lemmas about runs of steps. -/

namespace Sys2Proof.Machine

/-- Every command answers a next state: a completion or a fault entry. -/
theorem exec_next (i : Instr) (s : State) : ∃ t, exec i s = .next t := by
  cases i <;> exact ⟨_, rfl⟩

/-- A command ends as a completion from a state that differs in its own outputs only, or as a fault entry with one of its causes. -/
theorem exec_cases {i : Instr} {s t : State} (h : exec i s = .next t) :
    (∃ u : State, t = u.completed ∧
      (∀ r : Reg, r ∉ i.writes → r ≠ .status → r ≠ .fault → u.readReg r = s.readReg r) ∧
      u.fcode = s.fcode ∧ u.pend = s.pend ∧ u.cfg = s.cfg ∧ u.inputs = s.inputs ∧ u.reads = s.reads) ∨
    (∃ k, t = s.raiseFault k ∧
      (((i = .cast ∨ ∃ c, i = .casti c) ∧ 3 ≤ k.code.toNat ∧ k.code.toNat ≤ 6) ∨ (i = .strip ∧ k = .stripRng))) := by
  cases i with
  | nop =>
    obtain rfl : s.completed = t := by simpa [exec, execNop] using h
    exact .inl ⟨s, rfl, fun _ _ _ _ => rfl, rfl, rfl, rfl, rfl, rfl⟩
  | cast =>
    rcases perform_cases h with ⟨u, hu, rfl⟩ | ⟨k, hk, rfl⟩
    · cases hc : castColumn s.cfg s.posx s.posy s.angle s.column <;> simp [hc, Except.map] at hu
      subst hu
      exact .inl ⟨_, rfl, fun r h1 h2 h3 => by cases r <;> simp_all [Instr.writes, State.readReg, State.commitCast],
        rfl, rfl, rfl, rfl, rfl⟩
    · cases hc : castColumn s.cfg s.posx s.posy s.angle s.column <;> simp [hc, Except.map] at hk
      subst hk
      exact .inr ⟨_, rfl, .inl ⟨.inl rfl, cast_error_code hc⟩⟩
  | casti c =>
    rcases perform_cases h with ⟨u, hu, rfl⟩ | ⟨k, hk, rfl⟩
    · cases hc : castColumn s.cfg s.posx s.posy s.angle c <;> simp [hc, Except.map] at hu
      subst hu
      exact .inl ⟨_, rfl, fun r h1 h2 h3 => by cases r <;> simp_all [Instr.writes, State.readReg],
        rfl, rfl, rfl, rfl, rfl⟩
    · cases hc : castColumn s.cfg s.posx s.posy s.angle c <;> simp [hc, Except.map] at hk
      subst hk
      exact .inr ⟨_, rfl, .inl ⟨.inr ⟨c, rfl⟩, cast_error_code hc⟩⟩
  | strip =>
    rcases perform_cases h with ⟨u, hu, rfl⟩ | ⟨k, hk, rfl⟩
    · cases hc : stripGlyph s.result s.row <;> simp [hc, Except.map] at hu
      subst hu
      exact .inl ⟨_, rfl, fun r h1 h2 h3 => by cases r <;> simp_all [Instr.writes, State.readReg],
        rfl, rfl, rfl, rfl, rfl⟩
    · cases hc : stripGlyph s.result s.row <;> simp [hc, Except.map] at hk
      subst hk
      refine .inr ⟨_, rfl, .inr ⟨rfl, ?_⟩⟩
      unfold stripGlyph at hc
      split at hc
      · simpa using hc.symm
      · split at hc <;> simp at hc
  | _ =>
    simp [exec, execRot, execLddir, execLdrec, execLdhgt, execLdcell, execAddx, execAddy] at h
    subst h
    exact .inl ⟨_, rfl, fun r h1 h2 h3 => by cases r <;> simp_all [Instr.writes, State.readReg], rfl, rfl, rfl, rfl, rfl⟩

theorem exec_phase {i : Instr} {s t : State} (h : exec i s = .next t) : t.phase ≠ .busy := by
  rcases exec_cases h with ⟨u, rfl, -⟩ | ⟨k, rfl, -⟩ <;> simp

theorem hostWrite_of_idle {s : State} {a : RegAddr} {r : Reg} (v : Byte) (h : s.phase = .idle) (hr : regAt a = some r) :
    s.hostWrite a v = s.writeReg r v := by
  simp [State.hostWrite, h, hr]

theorem regAt_addr (r : Reg) : regAt r.addr = some r := by
  cases r <;> rfl

theorem hostRead_env (s : State) (es : List Event) (rs : List Byte) (a : RegAddr) :
    ({ s with inputs := es, reads := rs } : State).hostRead a = s.hostRead a := by
  unfold State.hostRead
  cases regAt a with
  | none => rfl
  | some r => cases r <;> rfl

theorem hostWrite_env (s : State) (es : List Event) (a : RegAddr) (v : Byte) :
    ({ s with inputs := es } : State).hostWrite a v = { s.hostWrite a v with inputs := es } := by
  obtain ⟨_, _, _, _, _, _, _, _, _, _, _, _, _, _, _, _, p, _, _, _, _, _, _⟩ := s
  unfold State.hostWrite
  cases p with
  | busy => rfl
  | faulted => rfl
  | idle =>
    cases regAt a with
    | none => rfl
    | some r => cases r <;> first | rfl | (simp only [State.writeReg, State.accept]; cases decode v <;> rfl)

theorem run_succ {n : Nat} {s t : State} (h : step s = .next t) : run (n + 1) s = run n t := by
  simp [run, h]

theorem run_one (s : State) : run 1 s = step s := by
  unfold run
  cases step s <;> rfl

theorem status_toNat (s : State) :
    s.status.toNat =
      (if s.phase = .faulted then 4 else 0) + (if s.done then 2 else 0) + (if s.phase = .busy then 1 else 0) := by
  unfold State.status
  cases s.phase <;> cases s.done <;> rfl

end Sys2Proof.Machine
end

