-- ==== Sys2Proof/Laws/PerInstr.lean ====
section
/-! SUPPORT. Facts about every command as syntax, one lemma per constructor: its operand is well-formed and its byte has the format
field of its format (spec/30_encoding.md R81, R82, R84). -/

namespace Sys2Proof.Laws.WordShape

/-- A command is well-formed, and bits 7:6 of its byte are its format. -/
def Statement (i : Instr) : Prop :=
  i.WellFormed ∧ fmtField (encode i) = i.format.bits

theorem nop : Statement .nop := ⟨trivial, fmtField_encode _⟩
theorem cast : Statement .cast := ⟨trivial, fmtField_encode _⟩
theorem strip : Statement .strip := ⟨trivial, fmtField_encode _⟩
theorem rot : Statement .rot := ⟨trivial, fmtField_encode _⟩
theorem lddir : Statement .lddir := ⟨trivial, fmtField_encode _⟩
theorem ldrec : Statement .ldrec := ⟨trivial, fmtField_encode _⟩
theorem ldhgt : Statement .ldhgt := ⟨trivial, fmtField_encode _⟩
theorem ldcell : Statement .ldcell := ⟨trivial, fmtField_encode _⟩
theorem addx : Statement .addx := ⟨trivial, fmtField_encode _⟩
theorem addy : Statement .addy := ⟨trivial, fmtField_encode _⟩
theorem casti (c : BitVec 6) : Statement (.casti c) := ⟨c.isLt, fmtField_encode _⟩

end Sys2Proof.Laws.WordShape
end

