-- ==== Sys2Proof/Tests/Ref.lean ====
section
/-! SUPPORT. The spec's reference configuration REF (spec/95_test_vectors.md section 2): the spec's own choice for its derived vectors,
not the machine's configuration. -/

namespace Sys2Proof.Tests

open Sys2Proof Sys2Proof.Machine

/-- A row of the direction table from its signed components. -/
def dirs (l : List (Int × Int)) : List Direction :=
  l.map fun p => { dx := BitVec.ofInt 8 p.1, dy := BitVec.ofInt 8 p.2 }

def refDirList : List Direction :=
  dirs [(32, 0), (32, 3), (31, 6), (31, 9), (30, 12), (28, 15), (27, 18), (25, 20)] ++
  dirs [(23, 23), (20, 25), (18, 27), (15, 28), (12, 30), (9, 31), (6, 31), (3, 32)] ++
  dirs [(0, 32), (-3, 32), (-6, 31), (-9, 31), (-12, 30), (-15, 28), (-18, 27), (-20, 25)] ++
  dirs [(-23, 23), (-25, 20), (-27, 18), (-28, 15), (-30, 12), (-31, 9), (-31, 6), (-32, 3)] ++
  dirs [(-32, 0), (-32, -3), (-31, -6), (-31, -9), (-30, -12), (-28, -15), (-27, -18), (-25, -20)] ++
  dirs [(-23, -23), (-20, -25), (-18, -27), (-15, -28), (-12, -30), (-9, -31), (-6, -31), (-3, -32)] ++
  dirs [(0, -32), (3, -32), (6, -31), (9, -31), (12, -30), (15, -28), (18, -27), (20, -25)] ++
  dirs [(23, -23), (25, -20), (27, -18), (28, -15), (30, -12), (31, -9), (31, -6), (32, -3)]

/-- `REF.RECIP` from index 16 on, which `REF.HEIGHT` shares. -/
def refTail : List Byte :=
  [16, 15, 14, 13, 12, 12, 11, 11, 10, 10, 9, 9, 9, 8, 8, 8] ++
  [8, 7, 7, 7, 7, 6, 6, 6, 6, 6, 6, 5, 5, 5, 5, 5] ++
  [5, 5, 5, 5, 4, 4, 4, 4, 4, 4, 4, 4, 4, 4, 4, 4] ++
  [4, 3, 3, 3, 3, 3, 3, 3, 3, 3, 3, 3, 3, 3, 3, 3] ++
  [3, 3, 3, 3, 3, 3, 2, 2, 2, 2, 2, 2, 2, 2, 2, 2] ++
  List.replicate 32 2 ++
  [2, 1, 1, 1, 1, 1, 1, 1, 1, 1, 1, 1, 1, 1, 1, 1] ++
  List.replicate 112 1

theorem refTail_length : refTail.length = 240 := by
  simp only [refTail, List.length_append, List.length_replicate]
  rfl

def refRecipList : List Byte :=
  [0, 255, 128, 85, 64, 51, 42, 36, 32, 28, 25, 23, 21, 19, 18, 17] ++ refTail

def refHeightList : List Byte :=
  [24, 24, 24, 24, 24, 24, 24, 24, 24, 24, 24, 23, 21, 19, 18, 17] ++ refTail

/-- A full row of wall. -/
def wallRow : Vector GridCell 8 := #v[.wall, .wall, .wall, .wall, .wall, .wall, .wall, .wall]

/-- An interior row: floor between two border cells. -/
def openRow : Vector GridCell 8 := #v[.wall, .floor, .floor, .floor, .floor, .floor, .floor, .wall]

/-- REF. -/
def ref : Cfg :=
  { dir := ⟨refDirList.toArray, by simp [refDirList, dirs]⟩
    recip := ⟨refRecipList.toArray, by simp only [refRecipList, List.size_toArray, List.length_append, refTail_length]; rfl⟩
    height := ⟨refHeightList.toArray, by simp only [refHeightList, List.size_toArray, List.length_append, refTail_length]; rfl⟩
    grid := #v[wallRow, openRow, openRow, openRow, openRow, openRow, openRow, wallRow]
    startPosx := 100
    startPosy := 128
    startAngle := 0 }

/-- The reset state of REF. -/
def refReset : State := State.resetWith ref

/-- REF's machine with a cast's operands set. -/
def refAt (posx posy : Byte) (angle column : BitVec 6) : State :=
  { refReset with posx := posx, posy := posy, angle := angle, column := column }

/-- REF's machine busy with a command byte. -/
def refBusy (v : Byte) : State :=
  { refReset with phase := .busy, pend := v }

/-- A value of the next state, none if the machine stops. -/
def after {α : Type} (f : State → α) : Host.Outcome State Fault Refusal → Option α
  | .next t => some (f t)
  | .fault _ => none
  | .refused _ => none

theorem next_of_after {α : Type} {f : State → α} {o : Host.Outcome State Fault Refusal} {v : α} (h : after f o = some v) :
    ∃ t, o = .next t ∧ f t = v := by
  cases o with
  | next t => exact ⟨t, rfl, by simpa [after] using h⟩
  | fault => simp [after] at h
  | refused => simp [after] at h

/-- The cast's registers in the order of the spec's tables: RESULT, PERP, SIDE, HITCELL, STEPS. -/
def castRegs (s : State) : List Nat :=
  [s.result.toNat, s.perp.toNat, s.side.toNat, s.hitcell.toNat, s.steps.toNat]

/-- STATUS and FAULT as read. -/
def statusRegs (s : State) : List Nat :=
  [(s.hostRead 0x08).toNat, (s.hostRead 0x09).toNat]

end Sys2Proof.Tests
end

