-- ==== Sys2Proof/Tests/Slice0.lean ====
section
/-! SUPPORT. Tests. Expected values come from the spec: the encoding table of spec/30_encoding.md R83, the register map of
spec/20_memory.md R54 and the vectors of spec/95_test_vectors.md, whose names stand beside each test. -/

namespace Sys2Proof.Tests

open Sys2Proof Sys2Proof.Machine

set_option Elab.async false

/-! ### Decoding: every command's byte, written out in bits from R83 -/

theorem test_decode_nop : decode 0b00000000 = .command .nop := by decide
theorem test_decode_cast : decode 0b00000001 = .command .cast := by decide
theorem test_decode_strip : decode 0b00000010 = .command .strip := by decide
theorem test_decode_rot : decode 0b00000011 = .command .rot := by decide
theorem test_decode_lddir : decode 0b00000100 = .command .lddir := by decide
theorem test_decode_ldrec : decode 0b00000101 = .command .ldrec := by decide
theorem test_decode_ldhgt : decode 0b00000110 = .command .ldhgt := by decide
theorem test_decode_ldcell : decode 0b00000111 = .command .ldcell := by decide
theorem test_decode_addx : decode 0b00001000 = .command .addx := by decide
theorem test_decode_addy : decode 0b00001001 = .command .addy := by decide
theorem test_decode_casti : decode 0b01011111 = .command (.casti 31) := by decide
/-- T-Q15 and the edges of R86's ranges. -/
theorem test_decode_reserved :
    [0x0A, 0x3F, 0x80, 0xC1, 0xFF].map decode = List.replicate 5 .reserved := by decide
/-- T-Q16. -/
theorem test_decode_accepted :
    [0x09, 0x40, 0x7F].map decode = [.command .addy, .command (.casti 0), .command (.casti 63)] := by decide
theorem test_decodeTableWord : decodeTableWord 8 0x60 = some (.casti 32) ∧ decodeTableWord 8 0x0A = none := by decide

/-! ### Well-formed configurations: REF is one (section 2); each clause refuses a REF with one change -/

/-- T-D38. -/
def zeroDir : Cfg := { ref with dir := ref.dir.set 5 { dx := 0, dy := 0 } }
/-- T-D39. -/
def tallCfg : Cfg := { ref with height := ref.height.set 24 200 }
/-- T-D51. -/
def openBorder : Cfg := { ref with grid := ref.grid.set 4 (openRow.set 7 .floor) }
/-- T-D52. -/
def zeroRecip : Cfg := { ref with recip := ref.recip.set 32 0 }
/-- T-D53. -/
def wildDir : Cfg := { ref with dir := ref.dir.set 0 { dx := 100, dy := 127 } }

theorem test_wf_ref : ref.Wf 34 := by decide +kernel
theorem test_wf_norm_refused : ¬ref.WfDirNorm 33 := by decide +kernel
theorem test_wf_dir_nonzero_refused : ¬zeroDir.WfDirNonzero := by decide +kernel
theorem test_wf_hgt_refused : ¬tallCfg.WfHgt7Bit ∧ ¬tallCfg.WfHgtMono := by decide +kernel
theorem test_wf_border_refused : ¬openBorder.WfGridBorder := by decide +kernel
theorem test_wf_rec_32_refused : ¬zeroRecip.WfRec32 := by decide +kernel
theorem test_wf_dir_refused : ¬wildDir.WfDirBound ∧ ¬wildDir.WfDir0 := by decide +kernel
theorem test_wf_rec_0_refused : ¬Cfg.WfRec0 { ref with recip := ref.recip.set 0 255 } := by decide +kernel
theorem test_wf_hgt_31_refused : ¬Cfg.WfHgt31 { ref with height := ref.height.set 31 7 } := by decide +kernel
theorem test_wf_corridor_refused : ¬Cfg.WfGridCorridor { ref with grid := ref.grid.set 4 wallRow } := by decide +kernel
theorem test_wf_start_refused : ¬Cfg.WfStart { ref with startPosy := 224 } := by decide +kernel
theorem test_wellFormed_casti : (Instr.casti 63).WellFormed := by decide

/-! ### Arithmetic (section 3.2) -/

theorem test_add8 : [add8 255 1, add8 200 55, add8 200 56, add8 47 255] = [(0, true), (255, false), (0, true), (46, true)] := by
  decide
theorem test_sub8 : [sub8 39 8, sub8 6 255, sub8 8 8] = [(31, false), (7, true), (0, false)] := by decide
/-- T-A15 to T-A21: the product is exact, the quotient truncates toward zero. -/
theorem test_mul_div :
    (mul8x8 0x80 0x80).toInt = 16384 ∧ (mul8x8 0x80 127).toInt = -16256 ∧
      [-6, -63, -64, -65, 127, -192].map (fun n => (div64 (BitVec.ofInt 16 n)).toInt) = [0, 0, -1, -1, 1, -3] := by
  decide
/-- T-A12, T-A24 to T-A26. -/
theorem test_narrow_neg_abs :
    (narrowSum 100 123).toInt = -33 ∧ (neg8 0x80).toInt = -128 ∧ (abs8 0x80).toNat = 128 ∧ (abs8 0xE1).toNat = 31 := by
  decide
/-- T-A29, T-A32, T-A33. -/
theorem test_scale_lt_div3 :
    [scale32 6 255, scale32 1 255, scale32 31 255] = [47, 7, 247] ∧ lt8 48 255 = true ∧ lt8 8 8 = false ∧
      [0, 2, 3, 26, 27, 127].map (fun n => (div3 (BitVec.ofNat 7 n)).toNat) = [0, 0, 1, 8, 9, 42] := by
  decide

/-! ### The small commands -/

/-- T-C1. -/
theorem test_nop : after (fun t => (castRegs t, statusRegs t, t.angle)) (exec .nop refReset) = some ([0, 0, 0, 0, 0], [2, 0], 0) := by
  decide +kernel
/-- T-C3. -/
theorem test_rot : after State.angle (exec .rot { refReset with angle := 63 }) = some 0 := by decide +kernel
/-- T-C6. -/
theorem test_addx : after State.posx (exec .addx { refReset with posx := 250, arg := 10 }) = some 4 := by decide +kernel
/-- T-C10. -/
theorem test_addy :
    after (fun t => (t.posx, t.posy)) (exec .addy { refReset with arg := 0xE0 }) = some (100, 96) := by decide +kernel
/-- T-D4, T-D9. -/
theorem test_lddir :
    after (fun t => (t.data0, t.data1)) (exec .lddir { refReset with arg := 0x11 }) = some (0xFD, 0x20) ∧
      after (fun t => (t.data0, t.data1)) (exec .lddir { refReset with arg := 0xFF }) = some (0x20, 0xFD) := by decide +kernel
/-- T-D12. -/
theorem test_ldrec :
    after (fun t => (t.data0, t.data1)) (exec .ldrec { refReset with arg := 0x20, data1 := 9 }) = some (0x08, 0) := by
  decide +kernel
/-- T-D18. -/
theorem test_ldhgt :
    after (fun t => (t.data0, statusRegs t)) (exec .ldhgt { State.resetWith tallCfg with arg := 0x18 }) = some (0xC8, [2, 0]) := by
  decide +kernel
/-- T-D20. -/
theorem test_ldcell_wall : after State.data0 (exec .ldcell { refReset with arg := 0x27 }) = some 1 := by decide +kernel
/-- T-D24. -/
theorem test_ldcell_floor : after State.data0 (exec .ldcell { refReset with arg := 0xE3, data0 := 7 }) = some 0 := by decide +kernel

/-! ### STRIP -/

/-- T-S5. -/
theorem test_strip :
    [4, 5, 6, 9, 10].map (fun r => State.stripAt { refReset with result := 0x88 } r) = [some 0, some 0, some 2, some 2, some 0] := by
  decide +kernel
/-- T-S9. -/
theorem test_strip_fault :
    after (fun t => (statusRegs t, t.glyph)) (exec .strip { refReset with result := 0x1B, glyph := 2 }) = some ([4, 7], 2) := by
  decide +kernel

/-! ### The cast -/

/-- T-D43: ties go to Y. -/
theorem test_cast : after castRegs (exec .cast (refAt 32 32 0 0)) = some [0x85, 48, 56, 0x3E, 11] := by decide +kernel
/-- T-D32: a carry on the last step is accepted. -/
theorem test_cast_final_carry : after castRegs (exec .cast (refAt 32 33 0 33)) = some [0x98, 7, 6, 0x01, 1] := by decide +kernel
/-- T-D48. -/
theorem test_casti :
    after (fun t => (castRegs t, t.column)) (exec (.casti 32) (refAt 44 96 0 7)) = some ([5, 45, 53, 0x1F, 6], 32) := by
  decide +kernel
/-- T-D31: a carry, then floor. -/
theorem test_casti_fault :
    after (fun t => (castRegs t, t.column, statusRegs t)) (exec (.casti 31) (refAt 32 58 0 7)) = some ([0, 0, 0, 0, 0], 7, [4, 5]) := by
  decide +kernel
/-- T-R6, T-R15. -/
theorem test_ray :
    rayGen ref 1 31 = { x := 32, y := 4 } ∧ rayGen wildDir 0 63 = { x := 0xDF, y := 0x1F } := by decide +kernel
/-- T-D38, T-D37, T-D39, T-D51. -/
theorem test_cast_faults :
    castColumn zeroDir 100 128 5 9 = .error .recipZ ∧ castColumn ref 16 128 32 32 = .error .gridRng ∧
      castColumn tallCfg 100 128 16 32 = .error .hgtRng ∧ castColumn openBorder 100 128 0 32 = .error .gridRng := by
  decide +kernel
/-- T-L1 with R66: the grid once per step, one reciprocal. -/
theorem test_romReads :
    romReads .cast (refAt 100 128 0 32) = { dirrom := 1, recrom := 1, gridrom := 4, hgtrom := 1 } := by decide +kernel

/-! ### Host, sequencer and reset (section 3.5) -/

/-- T-Q3, T-Q5. -/
theorem test_narrow_writes :
    (refReset.hostWrite 0x02 64).hostRead 0x02 = 0 ∧ (refReset.hostWrite 0x04 0x1F).hostRead 0x04 = 0x0F := by decide +kernel
/-- T-Q11, T-Q14. -/
theorem test_accept :
    statusRegs (refReset.hostWrite 0x07 0x00) = [1, 0] ∧ statusRegs (refReset.hostWrite 0x07 0x0A) = [4, 1] := by decide +kernel
/-- T-Q19, T-Q22. -/
theorem test_busy_and_faulted_writes :
    statusRegs ((refBusy 0x00).hostWrite 0x1F 5) = [4, 2] ∧
      statusRegs (((refBusy 0x00).hostWrite 0x1F 5).hostWrite 0x07 0x0A) = [4, 2] := by decide +kernel
/-- T-Q24. -/
theorem test_reset_while_busy :
    after (fun t => (t.posx, statusRegs t)) (step { refBusy 0x01 with posx := 7, inputs := [.reset] }) = some (100, [0, 0]) := by
  decide +kernel
/-- T-C2 as the first command after reset. -/
theorem test_step_after_reset : after State.angle (step (refReset.withFetchWord 8 0x03)) = some 1 := by decide +kernel
/-- T-Q21: a read while busy returns the old value. -/
theorem test_step_read : after State.reads (step { refBusy 0x01 with inputs := [.read 0x08, .read 0x06] }) = some [0x01] := by
  decide +kernel
/-- R88, R89: the lines SETPOS, CASTI and WAIT of section 4 as bus traffic. -/
theorem test_script_traffic :
    (scriptEvents [] [.setpos 100 128, .command (.casti 32), .wait 0]).filterMap Event.traffic =
      [.w 0x00 100, .w 0x01 128, .w 0x07 0x60, .r 0x08] := by decide

/-- P5: its events in run (a), where the write finds the engine busy, and in run (b), where it comes after `complete`. -/
theorem test_script_P5 :
    let script := [.reset, .command .cast, .wr .angle 5, .rd .status]
    scriptEvents [] script = [.reset, .write 0x07 0x01, .write 0x02 5, .read 0x08] ∧
      scriptEvents [false, false, true] script = [.reset, .write 0x07 0x01, .engine, .write 0x02 5, .read 0x08] := by decide

/-! ### Witnesses: for each statement with hypotheses, values that meet them all, at the edges of each clause's range -/

/-- T-D43's command, pending. -/
def busyCast : State := { refBusy 0x01 with posx := 32, posy := 32 }
/-- STRIP of a height that does not fit, pending. -/
def busyStrip : State := { refBusy 0x02 with result := 0x1B }
/-- A faulted machine. -/
def dead : State := refReset.raiseFault .sideOvf

theorem witness_DecodeInvertsEncode : decode 0x7F = .command (.casti 63) := by decide
theorem witness_DecodeAgreesWithOpcodeTable : decode 0x40 = .command (.casti 0) ∧ decode 0x3F = .reserved := by decide
theorem witness_ReservedBytesFaultAtTheWrite :
    refReset.phase = .idle ∧ decode 0x0A = .reserved ∧ decode 0x3F = .reserved ∧ decode 0x80 = .reserved ∧ decode 0xFF = .reserved := by
  decide +kernel
theorem witness_CastiImmediateIsTheColumn :
    (∃ t, exec (.casti 0) refReset = .next t ∧ t.phase = .idle) ∧ ∃ t, exec (.casti 63) refReset = .next t ∧ t.phase = .idle :=
  ⟨next_of_after (by decide +kernel), next_of_after (by decide +kernel)⟩
theorem witness_StepPerformsThePendingCommand :
    busyCast.phase = .busy ∧ decode busyCast.pend = .command .cast ∧ busyCast.nextEvent = .engine ∧
      decodeTableWord 8 0x00 = some .nop ∧ decodeTableWord 8 0x7F = some (.casti 63) := by decide +kernel
theorem witness_EngineHasNoStepUnlessBusy :
    refReset.phase ≠ .busy ∧ refReset.nextEvent = .engine ∧ dead.phase ≠ .busy ∧ dead.nextEvent = .engine := by decide +kernel
theorem witness_AcceptStartsCommands :
    refReset.phase = .idle ∧ decode 0x09 = .command .addy ∧ decode 0x0A = .reserved ∧ busyCast.phase = .busy ∧
      dead.phase = .faulted := by decide +kernel
theorem witness_AcceptStartsCommands_start :
    ∃ t, step { refReset with inputs := [.write 0x07 0x01] } = .next t ∧ (decide (refReset.phase ≠ .busy), t.phase) = (true, .busy) :=
  next_of_after (by decide +kernel)

theorem inv_of {s : State}
    (h : ((s.phase = .faulted ↔ s.fcode ≠ 0) ∧ s.fcode.toNat ≤ 7) ∧ (s.done = true → s.phase = .idle) ∧
      (s.phase = .busy → decode s.pend ≠ .reserved) ∧ s.glyph ≠ 3 ∧ s.steps.toNat ≤ 14) : s.Inv :=
  ⟨h.1.1, h.1.2, h.2.1, h.2.2.1, h.2.2.2.1, h.2.2.2.2⟩

/-- Idle with nothing completed, idle after a command, busy, faulted: the four values of STATUS. -/
theorem witness_Inv : refReset.Inv ∧ refReset.completed.Inv ∧ busyCast.Inv ∧ dead.Inv :=
  ⟨inv_of (by decide +kernel), inv_of (by decide +kernel), inv_of (by decide +kernel), inv_of (by decide +kernel)⟩
theorem witness_EveryStepKeepsTheInvariant : busyCast.Inv ∧ ∃ t, step busyCast = .next t ∧ t.steps = 11 :=
  ⟨witness_Inv.2.2.1, next_of_after (by decide +kernel)⟩
theorem witness_StepIsTotal : busyStrip.Inv := inv_of (by decide +kernel)
theorem witness_ConfigurationNeverChanges : ∃ t, step busyStrip = .next t ∧ t.fcode = 7 := next_of_after (by decide +kernel)
theorem witness_StatusBits :
    refReset.Inv ∧ refReset.completed.Inv ∧ busyCast.Inv ∧ dead.Inv ∧ refReset.phase = .idle :=
  ⟨witness_Inv.1, witness_Inv.2.1, witness_Inv.2.2.1, witness_Inv.2.2.2, rfl⟩
theorem witness_FaultRegister : dead.Inv ∧ refReset.phase = .idle := ⟨witness_Inv.2.2.2, rfl⟩
/-- The fault code changes at a fault entry and at a reset. -/
theorem witness_FaultRegister_writers :
    (∃ t, step busyStrip = .next t ∧ t.fcode = 7) ∧ ∃ t, step { dead with inputs := [.reset] } = .next t ∧ t.fcode = 0 :=
  ⟨next_of_after (by decide +kernel), next_of_after (by decide +kernel)⟩
theorem witness_HostReadsTheRegisterMap : 0x13 ≤ (0x13 : RegAddr).toNat ∧ 0x13 ≤ (0x1F : RegAddr).toNat := by decide
theorem witness_HostWritesByPhaseAndAddress :
    dead.phase = .faulted ∧ busyCast.phase = .busy ∧ refReset.phase = .idle ∧
      [0x00, 0x01, 0x02, 0x03, 0x04, 0x05, 0x06, 0x07].map (fun a : RegAddr => a.toNat) = [0, 1, 2, 3, 4, 5, 6, 7] ∧
        8 ≤ (0x08 : RegAddr).toNat ∧ 8 ≤ (0x1F : RegAddr).toNat := by decide +kernel
theorem witness_StepLetsTheNextEventAct :
    State.inputs { refReset with inputs := [.read 0x1F] } = .read 0x1F :: [] ∧
      State.inputs { busyCast with inputs := [.write 0x00 9, .engine] } = .write 0x00 9 :: [.engine] ∧
        State.inputs { dead with inputs := [.reset] } = .reset :: [] := by decide +kernel
theorem witness_WaitEnds (n : Nat) (s : State) (h : s = { busyCast with inputs := [.poll n] }) :
    s.phase = .busy ∧ s.done = false ∧ decode s.pend = .command .cast ∧ s.inputs = .poll n :: [] := by
  subst h
  exact ⟨rfl, rfl, (by decide : decode 0x01 = .command .cast), rfl⟩
theorem witness_BusyEngineCompletesAfterReads :
    busyCast.phase = .busy ∧ decode busyCast.pend = .command .cast ∧ busyCast.inputs = [].map Event.read ∧
      State.inputs { busyCast with inputs := [.read 0x08, .read 0x06] } = [0x08, 0x06].map Event.read := by decide +kernel
theorem witness_FaultsArePrecise_command : ∃ t, exec .strip busyStrip = .next t ∧ t.phase = .faulted :=
  next_of_after (by decide +kernel)
theorem witness_FaultsArePrecise_write :
    refReset.phase ≠ .faulted ∧ (refReset.hostWrite 0x07 0xFF).phase = .faulted ∧
      busyCast.phase ≠ .faulted ∧ (busyCast.hostWrite 0x1F 0).phase = .faulted := by decide +kernel
theorem witness_FaultsArePrecise_accepted :
    State.phase { refReset with result := 0x1B } = .idle ∧
      ∃ t, exec .strip (State.hostWrite { refReset with result := 0x1B } 0x07 (encode .strip)) = .next t ∧ t.phase = .faulted :=
  ⟨rfl, next_of_after (by decide +kernel)⟩
theorem witness_OnlyCastsAndStripFault :
    (∃ t, exec (.casti 31) (refAt 32 58 0 7) = .next t ∧ t.phase = .faulted) ∧
      (∃ t, exec .strip busyStrip = .next t ∧ t.phase = .faulted) ∧
        Instr.nop ≠ .cast ∧ (∀ c, Instr.nop ≠ .casti c) ∧ Instr.nop ≠ .strip :=
  ⟨next_of_after (by decide +kernel), next_of_after (by decide +kernel), by decide, by decide, by decide⟩
theorem witness_FaultedIsTerminalUntilReset :
    dead.phase = .faulted ∧ Event.reset ∉ State.inputs { dead with inputs := [.write 0x07 0x01, .read 0x09, .poll 3] } ∧
      State.inputs { dead with inputs := [.reset, .read 0x08] } = .reset :: [.read 0x08] := by decide +kernel
theorem witness_ResetGivesEveryRegisterItsValue : dead.resetEvent = refReset := rfl
theorem witness_StripAnswersForARow :
    State.result { refReset with result := 0x9A } = 0x9A ∧ (0x9A : Byte).toNat % 128 ≤ 26 ∧ (0x00 : Byte).toNat % 128 ≤ 26 ∧
      27 ≤ (0x1B : Byte).toNat % 128 ∧ 27 ≤ (0xFF : Byte).toNat % 128 := by decide +kernel
theorem witness_StripIsSymmetric : State.result { refReset with result := 0x1A } = 0x1A ∧ (0x1A : Byte).toNat % 128 ≤ 26 := by
  decide +kernel
theorem witness_SignedPrimitives : (0x81 : Byte).toInt ≠ -128 ∧ (0x7F : Byte).toInt ≠ -128 := by decide
theorem witness_UnsignedPrimitives : 0 ≤ 32 ∧ 32 ≤ 32 := by decide
theorem witness_RayIsExactWithinBound : ref.WfDirBound := test_wf_ref.1
theorem witness_RayIsNeverZeroWhenWellFormed : ref.WfDirBound ∧ ref.WfDirNonzero := ⟨test_wf_ref.1, test_wf_ref.2.2.1⟩

/-- T-D36 with a height: a wall on the first step at distance 0. -/
def nearCfg (h : Byte) : Cfg := { ref with height := ref.height.set 0 h }

theorem nearCfg_start (h : Byte) :
    intStart (nearCfg h) 100 32 48 32 = { mx := 3, my := 1, x := none, y := some ⟨8, -1, 0⟩ } :=
  show intStart ref 100 32 48 32 = _ by decide +kernel

theorem nearCfg_ends (h : Byte) :
    (intStart (nearCfg h) 100 32 48 32).Ends (nearCfg h) { mx := 3, my := 0, lastY := true, side := 8, delta := 8, steps := 1 } := by
  rw [nearCfg_start]
  have h : intCell (nearCfg h) 3 0 = some .wall := show intCell ref 3 0 = some .wall by decide +kernel
  exact .hit { mx := 3, my := 1, x := none, y := some ⟨8, -1, 0⟩ } ⟨8, -1, 0⟩ rfl h

/-- The integer walk of T-L1, and its height. -/
theorem witness_CastCompletesAsTheIntegerWalk :
    (intStart ref 100 128 0 32).Ends ref { mx := 7, my := 4, lastY := false, side := 39, delta := 8, steps := 4 } ∧
      ref.height[39 - 8]? = some 8 ∧ (8 : Byte).toNat ≤ 127 := by
  refine ⟨?_, by decide +kernel, by decide⟩
  rw [show intStart ref 100 128 0 32 = { mx := 3, my := 4, x := some ⟨8, 1, 7⟩, y := none } by decide +kernel]
  refine .goOn _ ⟨8, 1, 7⟩ { mx := 7, my := 4, lastY := false, side := 39, delta := 8, steps := 3 } rfl
    (show intCell ref 4 4 = _ by decide +kernel) (by decide) ?_
  refine .goOn _ ⟨8, 1, 15⟩ { mx := 7, my := 4, lastY := false, side := 39, delta := 8, steps := 2 } rfl
    (show intCell ref 5 4 = _ by decide +kernel) (by decide) ?_
  refine .goOn _ ⟨8, 1, 23⟩ { mx := 7, my := 4, lastY := false, side := 39, delta := 8, steps := 1 } rfl
    (show intCell ref 6 4 = _ by decide +kernel) (by decide) ?_
  exact .hit _ ⟨8, 1, 31⟩ rfl (show intCell ref 7 4 = _ by decide +kernel)
/-- The largest height that fits. -/
theorem witness_CastCompletesAsTheIntegerWalk_127 :
    (intStart (nearCfg 127) 100 32 48 32).Ends (nearCfg 127)
        { mx := 3, my := 0, lastY := true, side := 8, delta := 8, steps := 1 } ∧
      (nearCfg 127).height[8 - 8]? = some 127 ∧ (127 : Byte).toNat ≤ 127 :=
  ⟨nearCfg_ends _, by decide +kernel, by decide⟩
theorem witness_CompletedCastIsAnIntegerWalk : ∃ t, exec .cast (refAt 100 128 0 32) = .next t ∧ t.phase = .idle :=
  next_of_after (by decide +kernel)
theorem witness_CastFaultsWhereTheWalkBreaks_zero : intRay zeroDir 5 0 = (0, 0) ∧ intRay ref 0 32 ≠ (0, 0) := by decide +kernel
/-- T-D37. -/
theorem witness_CastFaultsWhereTheWalkBreaks_leaves : (intStart ref 16 128 32 32).Fails ref .gridRng := by
  rw [show intStart ref 16 128 32 32 = { mx := 0, my := 4, x := some ⟨8, -1, 4⟩, y := none } by decide +kernel]
  exact .leaves _ ⟨8, -1, 4⟩ rfl (show intCell ref (-1) 4 = _ by decide +kernel)
/-- By hand, as T-D31 from one sub-unit below the edge: Y is first, 7 + 255 leaves eight bits, cell (1, 2) is floor. -/
theorem witness_CastFaultsWhereTheWalkBreaks_carries : (intStart ref 32 63 0 31).Fails ref .sideOvf := by
  rw [show intStart ref 32 63 0 31 = { mx := 1, my := 1, x := some ⟨8, 1, 8⟩, y := some ⟨255, 1, 7⟩ } by decide +kernel]
  exact .carries _ ⟨255, 1, 7⟩ rfl (show intCell ref 1 2 = _ by decide +kernel) (by decide)
theorem witness_CastFaultsWhereTheWalkBreaks_height :
    (intStart (nearCfg 128) 100 32 48 32).Ends (nearCfg 128)
        { mx := 3, my := 0, lastY := true, side := 8, delta := 8, steps := 1 } ∧
      (nearCfg 128).height[8 - 8]? = some 128 ∧ 128 ≤ (128 : Byte).toNat :=
  ⟨nearCfg_ends _, by decide +kernel, by decide⟩
theorem witness_EveryWalkEnds : intRay ref 0 32 ≠ (0, 0) := by decide +kernel
theorem witness_WellFormedCastOnlyFaultsSideovf :
    ref.WfDirBound ∧ ref.WfDirNonzero ∧ ref.WfHgt7Bit ∧ ref.WfGridBorder ∧
      Cfg.Interior 32 ∧ Cfg.Interior 223 :=
  have ⟨h1, _, h3, _, _, _, _, _, h9, h10, _⟩ := test_wf_ref
  ⟨h1, h3, h9, h10, by decide, by decide⟩

/-- REF with every reciprocal 31. -/
def gentleCfg : Cfg := { ref with recip := Vector.replicate 256 31 }

theorem witness_CastCompletesWithSmallReciprocals :
    gentleCfg.WfDirBound ∧ gentleCfg.WfDirNonzero ∧ gentleCfg.WfHgt7Bit ∧ gentleCfg.WfGridBorder ∧
      Cfg.Interior 32 ∧ Cfg.Interior 223 ∧ ∀ m : Fin 256, gentleCfg.recip[m].toNat ≤ 31 :=
  have ⟨h1, _, h3, _, _, _, _, _, h9, h10, _⟩ := test_wf_ref
  ⟨h1, h3, h9, h10, by decide, by decide, fun m => by simp [gentleCfg]⟩
theorem witness_CastiIsCastOfItsColumn :
    (∃ t, exec .cast { refReset with column := 32 } = .next t ∧ t.phase = .idle) ∧
      ∃ t, exec .cast { refAt 32 58 0 7 with column := 31 } = .next t ∧ t.phase = .faulted :=
  ⟨next_of_after (by decide +kernel), next_of_after (by decide +kernel)⟩
/-- Two states that agree on a cast's operands only. -/
theorem witness_CastIsPure :
    (∃ t, exec .cast (refAt 100 128 0 32) = .next t ∧ t.phase = .idle) ∧
      (∃ t, exec .cast (refAt 32 58 0 31) = .next t ∧ t.phase = .faulted) ∧
        State.cfg { refAt 100 128 0 32 with result := 9, side := 7, steps := 3, arg := 1 } = ref :=
  ⟨next_of_after (by decide +kernel), next_of_after (by decide +kernel), rfl⟩

/-- T-L2 before its last step: Y is taken, its side distance the smaller. -/
def lastStepY : Walk := { mapX := 6, mapY := 6, active := .both ⟨8, .plus, 31⟩ ⟨8, .plus, 24⟩, steps := 5 }
/-- X is taken, its side distance the smaller by one. -/
def lastStepX : Walk := { mapX := 6, mapY := 4, active := .both ⟨8, .plus, 31⟩ ⟨8, .plus, 32⟩, steps := 3 }

theorem witness_DistanceIsTheSmallerSide :
    lastStepY.step ref = .hit { mapX := 6, mapY := 7, last := .y, side := 32, delta := 8, steps := 6 } ∧
      lastStepX.step ref = .hit { mapX := 7, mapY := 4, last := .x, side := 39, delta := 8, steps := 4 } := by decide +kernel

theorem walk_ok_of {c : Cfg} {n : Nat} {w : Walk} {e : WalkEnd} (h : (walk c n w).toOption = some e) : walk c n w = .ok e := by
  cases hw : walk c n w <;> simp_all [Except.toOption]

/-- T-L1 and T-D35, with another axis that is never, or at most equally, near. -/
theorem witness_RestrictedWalkAgreesWithGeneral :
    walk ref 15 { mapX := 3, mapY := 4, active := .xOnly ⟨8, .plus, 7⟩, steps := 0 } =
        .ok { mapX := 7, mapY := 4, last := .x, side := 39, delta := 8, steps := 4 } ∧
      (correct 39 8).toNat < (32 : Byte).toNat ∧
      walk ref 15 { mapX := 3, mapY := 4, active := .yOnly ⟨8, .plus, 8⟩, steps := 0 } =
        .ok { mapX := 3, mapY := 7, last := .y, side := 32, delta := 8, steps := 3 } ∧
      (correct 32 8).toNat ≤ (24 : Byte).toNat :=
  ⟨walk_ok_of (by decide +kernel), by decide, walk_ok_of (by decide +kernel), by decide⟩
theorem witness_SourceScenarioOne :
    ref.WfDir0 ∧ ref.WfRec32 ∧ ref.WfHgt31 ∧ ref.WfGridBorder ∧ ref.WfGridCorridor ∧
      (refAt 100 128 0 32).posx = 100 ∧ (refAt 100 128 0 32).column = 32 := by decide +kernel
theorem witness_SourceScenarioTwoRays : ref.WfDir0 := by decide +kernel
theorem witness_CompletedCastRomReads : ∃ t, exec .cast (refAt 32 32 0 0) = .next t ∧ t.phase = .idle :=
  next_of_after (by decide +kernel)
theorem witness_CommandFrame :
    (∃ t, exec .cast (refAt 32 32 0 0) = .next t ∧ t.phase = .idle) ∧ ∃ t, exec .strip busyStrip = .next t ∧ t.phase = .faulted :=
  ⟨next_of_after (by decide +kernel), next_of_after (by decide +kernel)⟩

end Sys2Proof.Tests
end

/-! # The state and the sequencer (spec/10_state.md)

First the facts about the register map, the host's writes and the commands' ends that the statements share; then the sequencer's
invariant, kept by each shared operation in turn; then the statements. -/

namespace Sys2Proof.Machine

/-! ### The register map -/

theorem addr_of_regAt {a : RegAddr} {r : Reg} : regAt a = some r → r.addr = a := by
  have h : ∀ a : RegAddr, ∀ r ∈ regAt a, r.addr = a := by decide
  exact h a r

theorem regAt_eq_none_iff : ∀ a : RegAddr, regAt a = none ↔ 0x13 ≤ a.toNat := by
  decide

theorem hostRead_of_regAt {s : State} {a : RegAddr} {r : Reg} (h : regAt a = some r) : s.hostRead a = s.readReg r := by
  simp [State.hostRead, h]

theorem hostRead_of_reserved {s : State} {a : RegAddr} (h : regAt a = none) : s.hostRead a = 0 := by
  simp [State.hostRead, h]

theorem setWidth8_injective {n : Nat} (h : n ≤ 8) {a b : BitVec n} (hab : a.setWidth 8 = b.setWidth 8) : a = b :=
  BitVec.eq_of_toNat_eq (by rw [← setWidth8_toNat a h, hab, setWidth8_toNat b h])

/-! ### The host's writes -/

theorem hostWrite_cmd_of_idle {s : State} (v : Byte) (h : s.phase = .idle) : s.hostWrite 0x07 v = s.accept v :=
  hostWrite_of_idle v h (regAt_addr .cmd)

theorem accept_cfg (s : State) (v : Byte) : (s.accept v).cfg = s.cfg := by
  cases hd : decode v with
  | command i => rw [accept_of_command hd]
  | reserved => rw [accept_of_reserved hd, State.raiseFault_cfg]

theorem hostWrite_cfg (s : State) (a : RegAddr) (v : Byte) : (s.hostWrite a v).cfg = s.cfg := by
  rcases hostWrite_cases s a v with h | ⟨-, h⟩ | ⟨-, h | ⟨r, hr, h⟩⟩ <;> rw [h]
  · exact State.raiseFault_cfg s _
  · exact accept_cfg s v
  · obtain ⟨-, -, -, -, -, -, hcfg, -⟩ := writeReg_keeps_sequencer (s := s) (v := v) hr
    exact hcfg

/-- A write enters a fault, or leaves the fault code as it was (R29). -/
theorem hostWrite_fcode_cases (s : State) (a : RegAddr) (v : Byte) :
    (s.hostWrite a v).fcode = s.fcode ∨ (s.phase ≠ .faulted ∧ ∃ k, s.hostWrite a v = s.raiseFault k) := by
  rcases hostWrite_cases s a v with h | ⟨hp, h⟩ | ⟨hp, h | ⟨r, hr, h⟩⟩ <;> rw [h]
  · exact .inl rfl
  · exact .inr ⟨by simp [hp], _, rfl⟩
  · cases hd : decode v with
    | command i => exact .inl (by rw [accept_of_command hd])
    | reserved => exact .inr ⟨by simp [hp], _, accept_of_reserved hd⟩
  · obtain ⟨-, -, hfcode, -⟩ := writeReg_keeps_sequencer (s := s) (v := v) hr
    exact .inl hfcode

/-- Only the accept of a defined command makes the engine busy (R32). -/
theorem hostWrite_starts {s : State} {a : RegAddr} {v : Byte} (hs : s.phase ≠ .busy)
    (ht : (s.hostWrite a v).phase = .busy) : s.phase = .idle ∧ a = 0x07 ∧ ∃ i, decode v = .command i := by
  cases hp : s.phase with
  | busy => exact absurd hp hs
  | faulted =>
    rw [hostWrite_of_faulted a v hp] at ht
    exact absurd ht hs
  | idle =>
    cases hr : regAt a with
    | none =>
      have hw : s.hostWrite a v = s := by simp [State.hostWrite, hp, hr]
      exact absurd (hw ▸ ht) hs
    | some r =>
      rw [hostWrite_of_idle v hp hr] at ht
      by_cases hc : r = .cmd
      · subst hc
        refine ⟨rfl, (addr_of_regAt hr).symm, ?_⟩
        cases hd : decode v with
        | command i => exact ⟨i, rfl⟩
        | reserved =>
          change (s.accept v).phase = .busy at ht
          simp [accept_of_reserved hd] at ht
      · obtain ⟨hphase, -⟩ := writeReg_keeps_sequencer (s := s) (v := v) hc
        exact absurd (hphase ▸ ht) hs

/-! ### The commands that can fault, by what their rule answers -/

theorem exec_cast_of_ok {s : State} {o : CastOut} (h : castColumn s.cfg s.posx s.posy s.angle s.column = .ok o) :
    exec .cast s = .next (s.commitCast o).completed := by
  simp [exec, execCast, h, Except.map]

theorem exec_cast_of_error {s : State} {k : FaultCode}
    (h : castColumn s.cfg s.posx s.posy s.angle s.column = .error k) : exec .cast s = .next (s.raiseFault k) := by
  simp [exec, execCast, h, Except.map]

/-- A command whose rule answers a value to commit, or a cause: it ends with that commit, or in that fault. -/
theorem perform_map_cases {α : Type} {s t : State} {r : Except FaultCode α} {f : α → State}
    (h : perform s (r.map f) = .next t) :
    (∃ o, r = .ok o ∧ t = (f o).completed) ∨ (∃ k, r = .error k ∧ t = s.raiseFault k) := by
  cases r with
  | ok o => exact .inl ⟨o, rfl, by simpa [Except.map] using h.symm⟩
  | error k => exact .inr ⟨k, rfl, by simpa [Except.map] using h.symm⟩

/-- Glyph class 3 is never computed (R38). -/
theorem stripGlyph_ne_three {r : Byte} {row : BitVec 4} {g : BitVec 2} (h : stripGlyph r row = .ok g) : g ≠ 3 := by
  unfold stripGlyph at h
  split at h
  · cases h
  · split at h
    · cases h
      unfold axisGlyph
      split <;> decide
    · cases h
      decide

/-- A cast that completes commits at most fourteen steps (R168). -/
theorem castColumn_steps_le {c : Cfg} {posx posy : Byte} {angle column : BitVec 6} {o : CastOut}
    (h : castColumn c posx posy angle column = .ok o) : o.steps.toNat ≤ 14 := by
  rcases castColumn_spec c posx posy angle column with
    ⟨-, g⟩ | ⟨f, -, g⟩ | ⟨E, b, -, -, -, g⟩ | ⟨E, b, o', -, -, -, g, -, -, hle, hcommit⟩
  · simp [h] at g
  · simp [h] at g
  · simp [h] at g
  · obtain rfl : o = o' := by simpa [h] using g
    have hsteps : o.steps = BitVec.ofNat 4 E.steps := congrArg State.steps (hcommit State.reset)
    rw [hsteps, BitVec.toNat_ofNat]
    omega

/-! ### What a command leaves -/

theorem readReg_completed {s : State} {r : Reg} (h : r ≠ .status) : s.completed.readReg r = s.readReg r := by
  cases r <;> simp_all [State.readReg, State.faultByte]

theorem readReg_raiseFault {s : State} {k : FaultCode} {r : Reg} (h : r ≠ .status) (h' : r ≠ .fault) :
    (s.raiseFault k).readReg r = s.readReg r := by
  cases r <;> simp_all [State.readReg]

/-- A register outside the command's row of the table of writes keeps its value, however the command ends (R85). -/
theorem exec_readReg {i : Instr} {s t : State} {r : Reg} (h : exec i s = .next t) (hw : r ∉ i.writes)
    (hst : r ≠ .status) (hf : r ≠ .fault) : t.readReg r = s.readReg r := by
  rcases exec_cases h with ⟨u, rfl, hframe, -⟩ | ⟨k, rfl, -⟩
  · rw [readReg_completed hst, hframe r hw hst hf]
  · exact readReg_raiseFault hst hf

theorem exec_cfg {i : Instr} {s t : State} (h : exec i s = .next t) : t.cfg = s.cfg := by
  rcases exec_cases h with ⟨u, rfl, -, -, -, hcfg, -⟩ | ⟨k, rfl, -⟩
  · exact hcfg
  · rfl

/-- A command completes with the fault code as it was, or enters a fault (R31, R204). -/
theorem exec_end_cases {i : Instr} {s t : State} (h : exec i s = .next t) :
    (t.phase = .idle ∧ t.fcode = s.fcode) ∨ ∃ k, t = s.raiseFault k := by
  rcases exec_cases h with ⟨u, rfl, -, hfcode, -⟩ | ⟨k, rfl, -⟩
  · exact .inl ⟨rfl, hfcode⟩
  · exact .inr ⟨k, rfl⟩

theorem glyph_mem_writes {i : Instr} (h : Reg.glyph ∈ i.writes) : i = .strip := by
  cases i <;> simp_all [Instr.writes]

theorem steps_mem_writes {i : Instr} (h : Reg.steps ∈ i.writes) : i = .cast ∨ ∃ c, i = .casti c := by
  cases i <;> simp_all [Instr.writes]

theorem exec_glyph_ne {i : Instr} {s t : State} (h : exec i s = .next t) (hs : s.glyph ≠ 3) : t.glyph ≠ 3 := by
  by_cases hw : Reg.glyph ∈ i.writes
  · obtain rfl := glyph_mem_writes hw
    rcases perform_map_cases h with ⟨g, hg, rfl⟩ | ⟨k, -, rfl⟩
    · exact stripGlyph_ne_three hg
    · exact hs
  · have hread := exec_readReg h hw (by decide) (by decide)
    have hglyph : t.glyph = s.glyph := setWidth8_injective (by decide) hread
    rwa [hglyph]

theorem exec_steps_le {i : Instr} {s t : State} (h : exec i s = .next t) (hs : s.steps.toNat ≤ 14) :
    t.steps.toNat ≤ 14 := by
  by_cases hw : Reg.steps ∈ i.writes
  · rcases steps_mem_writes hw with rfl | ⟨c, rfl⟩ <;> rcases perform_map_cases h with ⟨o, ho, rfl⟩ | ⟨k, -, rfl⟩
    · exact castColumn_steps_le ho
    · exact hs
    · exact castColumn_steps_le ho
    · exact hs
  · have hread := exec_readReg h hw (by decide) (by decide)
    have hsteps : t.steps = s.steps := setWidth8_injective (by decide) hread
    rwa [hsteps]

/-! ### The invariant, kept by each operation -/

/-- The invariant looks at six registers only. -/
theorem State.Inv.congr {s t : State} (h : s.Inv) (hphase : t.phase = s.phase) (hdone : t.done = s.done)
    (hfcode : t.fcode = s.fcode) (hpend : t.pend = s.pend) (hglyph : t.glyph = s.glyph) (hsteps : t.steps = s.steps) :
    t.Inv where
  fault_iff := by rw [hphase, hfcode]; exact h.fault_iff
  fcode_le := by rw [hfcode]; exact h.fcode_le
  done_idle := by rw [hphase, hdone]; exact h.done_idle
  pending := by rw [hphase, hpend]; exact h.pending
  glyph_ne := by rw [hglyph]; exact h.glyph_ne
  steps_le := by rw [hsteps]; exact h.steps_le

theorem State.Inv.fcode_eq_zero {s : State} (h : s.Inv) (hp : s.phase ≠ .faulted) : s.fcode = 0 :=
  not_not.1 (mt h.fault_iff.2 hp)

theorem State.Inv.done_eq_false {s : State} (h : s.Inv) (hp : s.phase ≠ .idle) : s.done = false :=
  Bool.eq_false_iff.2 (mt h.done_idle hp)

theorem State.Inv.raiseFault {s : State} (h : s.Inv) (k : FaultCode) : (s.raiseFault k).Inv where
  fault_iff := by simpa using k.code_ne_zero
  fcode_le := k.code_le
  done_idle := by simp
  pending := by simp
  glyph_ne := h.glyph_ne
  steps_le := h.steps_le

theorem inv_completed {u : State} (hfcode : u.fcode = 0) (hglyph : u.glyph ≠ 3) (hsteps : u.steps.toNat ≤ 14) :
    u.completed.Inv where
  fault_iff := by simp [hfcode]
  fcode_le := by simp [hfcode]
  done_idle := by simp
  pending := by simp
  glyph_ne := hglyph
  steps_le := hsteps

theorem inv_resetWith (c : Cfg) : (State.resetWith c).Inv := by
  constructor <;> simp [State.resetWith]

theorem inv_resetEvent (s : State) : s.resetEvent.Inv :=
  (inv_resetWith s.cfg).congr rfl rfl rfl rfl rfl rfl

theorem State.Inv.accept {s : State} (h : s.Inv) (hp : s.phase = .idle) (v : Byte) : (s.accept v).Inv := by
  cases hd : decode v with
  | reserved =>
    rw [accept_of_reserved hd]
    exact h.raiseFault .illCmd
  | command i =>
    have hfcode : s.fcode = 0 := h.fcode_eq_zero (by simp [hp])
    rw [accept_of_command hd]
    exact ⟨by simp [hfcode], h.fcode_le, by simp, by simp [hd], h.glyph_ne, h.steps_le⟩

theorem State.Inv.hostWrite {s : State} (h : s.Inv) (a : RegAddr) (v : Byte) : (s.hostWrite a v).Inv := by
  rcases hostWrite_cases s a v with hw | ⟨-, hw⟩ | ⟨hp, hw | ⟨r, hr, hw⟩⟩ <;> rw [hw]
  · exact h
  · exact h.raiseFault .busyWr
  · exact h.accept hp v
  · obtain ⟨hphase, hdone, hfcode, hpend, hglyph, hsteps, -⟩ := writeReg_keeps_sequencer (s := s) (v := v) hr
    exact h.congr hphase hdone hfcode hpend hglyph hsteps

/-- A command performed by a busy engine keeps the invariant. -/
theorem State.Inv.exec {i : Instr} {s t : State} (h : s.Inv) (hp : s.phase = .busy)
    (ht : Machine.exec i s = .next t) : t.Inv := by
  have hglyph := exec_glyph_ne ht h.glyph_ne
  have hsteps := exec_steps_le ht h.steps_le
  rcases exec_cases ht with ⟨u, rfl, -, hfcode, -⟩ | ⟨k, rfl, -⟩
  · exact inv_completed (hfcode.trans (h.fcode_eq_zero (by simp [hp]))) hglyph hsteps
  · exact h.raiseFault k

theorem State.Inv.takeEvent {e : Event} {s t : State} (h : s.Inv) (ht : Machine.takeEvent e s = .next t) : t.Inv := by
  rcases takeEvent_cases ht with
    ⟨-, -, rfl⟩ | ⟨-, hp, i, -, hexec⟩ | ⟨a, -, rfl⟩ | ⟨a, v, -, rfl⟩ | ⟨-, rfl⟩ | ⟨n, -, rfl⟩
  · exact h
  · exact h.exec hp hexec
  · exact h.congr rfl rfl rfl rfl rfl rfl
  · exact h.hostWrite a v
  · exact inv_resetEvent s
  · exact h.congr rfl rfl rfl rfl rfl rfl

theorem State.Inv.dropEvent {s : State} (h : s.Inv) : s.dropEvent.Inv :=
  h.congr rfl rfl rfl rfl rfl rfl

/-! ### What one event does to the phase, the configuration and the fault code -/

/-- Only the write of a defined command to CMD, while idle, makes an engine busy that was not (R32). -/
theorem takeEvent_starts {e : Event} {s t : State} (h : takeEvent e s = .next t) (hs : s.phase ≠ .busy)
    (ht : t.phase = .busy) : s.phase = .idle ∧ ∃ v i, e = .write 0x07 v ∧ decode v = .command i := by
  rcases takeEvent_cases h with
    ⟨-, -, rfl⟩ | ⟨-, hp, -⟩ | ⟨a, -, rfl⟩ | ⟨a, v, rfl, rfl⟩ | ⟨-, rfl⟩ | ⟨n, -, rfl⟩
  · exact absurd ht hs
  · exact absurd hp hs
  · exact absurd ht hs
  · obtain ⟨hp, rfl, i, hd⟩ := hostWrite_starts hs ht
    exact ⟨hp, v, i, rfl, hd⟩
  · simp at ht
  · exact absurd ht hs

theorem takeEvent_cfg {e : Event} {s t : State} (h : takeEvent e s = .next t) : t.cfg = s.cfg := by
  rcases takeEvent_cases h with
    ⟨-, -, rfl⟩ | ⟨-, -, i, -, hexec⟩ | ⟨a, -, rfl⟩ | ⟨a, v, -, rfl⟩ | ⟨-, rfl⟩ | ⟨n, -, rfl⟩
  · rfl
  · exact exec_cfg hexec
  · rfl
  · exact hostWrite_cfg s a v
  · rfl
  · rfl

/-- An event keeps the fault code, or is a reset or a fault entry (R29). -/
theorem takeEvent_fcode_cases {e : Event} {s t : State} (h : takeEvent e s = .next t) :
    t.fcode = s.fcode ∨ e = .reset ∨ (s.phase ≠ .faulted ∧ ∃ k, t = s.raiseFault k) := by
  rcases takeEvent_cases h with
    ⟨-, -, rfl⟩ | ⟨-, hp, i, -, hexec⟩ | ⟨a, -, rfl⟩ | ⟨a, v, -, rfl⟩ | ⟨he, -⟩ | ⟨n, -, rfl⟩
  · exact .inl rfl
  · rcases exec_end_cases hexec with ⟨-, hfcode⟩ | hfault
    · exact .inl hfcode
    · exact .inr (.inr ⟨by simp [hp], hfault⟩)
  · exact .inl rfl
  · rcases hostWrite_fcode_cases s a v with hfcode | hfault
    · exact .inl hfcode
    · exact .inr (.inr hfault)
  · exact .inr (.inl he)
  · exact .inl rfl

/-- Only a busy engine's turn can stop the model, and then only on a reserved byte (R31, R37). -/
theorem takeEvent_next (e : Event) {s : State} (h : s.phase = .busy → decode s.pend ≠ .reserved) :
    ∃ t, takeEvent e s = .next t := by
  cases e with
  | engine =>
    by_cases hp : s.phase = .busy
    · cases hd : decode s.pend with
      | reserved => exact absurd hd (h hp)
      | command i =>
        obtain ⟨t, ht⟩ := exec_next i s
        exact ⟨t, (complete_of_command hp hd).trans ht⟩
    · exact ⟨s, complete_of_not_busy hp⟩
  | read a => exact ⟨_, rfl⟩
  | write a v => exact ⟨_, rfl⟩
  | reset => exact ⟨_, rfl⟩
  | poll n => exact ⟨_, rfl⟩

theorem step_of_engine {s : State} (h : s.nextEvent = .engine) : step s = complete s.dropEvent := by
  simp only [step, h, takeEvent]

/-! ### STATUS, and the host's view after reset -/

theorem hostRead_status (s : State) : s.hostRead 0x08 = s.status :=
  hostRead_of_regAt (regAt_addr .status)

/-- The bits of STATUS (R28). -/
theorem status_bits (s : State) :
    (s.status.getLsbD 0 = true ↔ s.phase = .busy) ∧ s.status.getLsbD 1 = s.done ∧
      (s.status.getLsbD 2 = true ↔ s.phase = .faulted) := by
  unfold State.status
  cases s.phase <;> cases s.done <;> decide

/-- The only four values of STATUS (R28). -/
theorem status_eq_of_inv {s : State} (h : s.Inv) :
    (s.phase = .idle ∧ s.done = false ∧ s.status = 0x00) ∨ (s.phase = .busy ∧ s.status = 0x01) ∨
      (s.phase = .idle ∧ s.done = true ∧ s.status = 0x02) ∨ (s.phase = .faulted ∧ s.status = 0x04) := by
  cases hp : s.phase with
  | idle =>
    cases hd : s.done with
    | false => exact .inl ⟨rfl, rfl, by simp [State.status, hp, hd]⟩
    | true => exact .inr (.inr (.inl ⟨rfl, rfl, by simp [State.status, hp, hd]⟩))
  | busy =>
    have hd := h.done_eq_false (by simp [hp])
    exact .inr (.inl ⟨rfl, by simp [State.status, hp, hd]⟩)
  | faulted =>
    have hd := h.done_eq_false (by simp [hp])
    exact .inr (.inr (.inr ⟨rfl, by simp [State.status, hp, hd]⟩))

/-- What the host reads after a reset (R36): the start constants at the first three addresses, 0 at the others. -/
def resetByte (c : Cfg) (a : RegAddr) : Nat :=
  if a.toNat = 0 then c.startPosx.toNat
  else if a.toNat = 1 then c.startPosy.toNat
  else if a.toNat = 2 then c.startAngle.toNat
  else 0

theorem hostRead_resetWith (c : Cfg) (a : RegAddr) : ((State.resetWith c).hostRead a).toNat = resetByte c a := by
  cases hr : regAt a with
  | none =>
    have ha := (regAt_eq_none_iff a).1 hr
    rw [hostRead_of_reserved hr, resetByte, if_neg (by omega), if_neg (by omega), if_neg (by omega)]
    rfl
  | some r =>
    obtain rfl := addr_of_regAt hr
    rw [hostRead_of_regAt hr]
    cases r with
    | angle => exact setWidth8_toNat c.startAngle (by decide)
    | status => exact status_toNat (State.resetWith c)
    | _ => rfl

theorem hostRead_resetEvent (s : State) (a : RegAddr) : s.resetEvent.hostRead a = (State.resetWith s.cfg).hostRead a :=
  hostRead_env (State.resetWith s.cfg) s.inputs s.reads a

/-! ### The statements -/

/-- Settles O10: each event keeps the invariant, and so does taking it off the list. -/
theorem everyStepKeepsTheInvariant : Obligations.EveryStepKeepsTheInvariant :=
  fun _ _ h ht => h.dropEvent.takeEvent ht

/-- Settles O8: an accept by the phase and the byte, and the only event a command starts at. -/
theorem acceptStartsCommands : Obligations.AcceptStartsCommands := by
  refine ⟨fun s v => ⟨fun hp i hd => ?_, fun hp hd => ?_, fun hp => ?_, hostWrite_of_faulted 0x07 v⟩,
    fun s t h hs ht => takeEvent_starts (s := s.dropEvent) h hs ht⟩
  · rw [hostWrite_cmd_of_idle v hp, accept_of_command hd]
  · rw [hostWrite_cmd_of_idle v hp, accept_of_reserved hd]
    rfl
  · rw [hostWrite_of_busy 0x07 v hp]
    exact ⟨rfl, complete_of_not_busy (by simp)⟩

/-- Settles O11: the invariant keeps reserved bytes from being pending. -/
theorem stepIsTotal : Obligations.StepIsTotal :=
  fun s h => takeEvent_next s.nextEvent h.dropEvent.pending

/-- Settles O12. -/
theorem configurationNeverChanges : Obligations.ConfigurationNeverChanges :=
  fun s _ h => takeEvent_cfg (s := s.dropEvent) h

/-- Settles O14. -/
theorem faultRegister : Obligations.FaultRegister := by
  refine ⟨fun s => setWidth8_toNat s.fcode (by decide), fun s h => h.fault_iff.symm,
    fun s v hp => hostWrite_of_idle v hp (regAt_addr .fault), fun s t h hne => ?_⟩
  rcases takeEvent_fcode_cases (s := s.dropEvent) h with hfcode | he | ⟨hp, k, rfl⟩
  · exact absurd hfcode hne
  · exact .inl he
  · exact .inr ⟨hp, rfl, k, rfl⟩

/-- Settles O48: both casts are given by one call of `castColumn`. -/
theorem castIsPure : Obligations.CastIsPure := by
  intro s₁ s₂ t₁ hx hy hangle hcolumn hcfg h
  have hcast : castColumn s₂.cfg s₂.posx s₂.posy s₂.angle s₂.column =
      castColumn s₁.cfg s₁.posx s₁.posy s₁.angle s₁.column := by
    rw [hx, hy, hangle, hcolumn, hcfg]
  cases hc : castColumn s₁.cfg s₁.posx s₁.posy s₁.angle s₁.column with
  | ok o =>
    rw [exec_cast_of_ok hc] at h
    cases h
    exact ⟨_, exec_cast_of_ok (hcast.trans hc), rfl, by simp, by simp⟩
  | error k =>
    rw [exec_cast_of_error hc] at h
    cases h
    exact ⟨_, exec_cast_of_error (hcast.trans hc), rfl, by simp, by simp⟩

/-- Settles O6. -/
theorem stepPerformsThePendingCommand : Obligations.StepPerformsThePendingCommand := by
  refine ⟨fun s i hp hd he => ?_, fun s w i hw hdecode => ?_⟩
  · rw [step_of_engine he]
    exact complete_of_command hp hd
  · have hd : decode (BitVec.ofNat 8 w) = .command i := by
      rw [← tableByte_of_lt hw]
      exact decodeTableWord_eq_some.1 hdecode
    rw [State.withFetchWord, tableByte_of_lt hw, step_of_engine rfl]
    exact complete_of_command rfl hd

/-- Settles O7. -/
theorem engineHasNoStepUnlessBusy : Obligations.EngineHasNoStepUnlessBusy := by
  intro s hp he
  rw [step_of_engine he]
  exact complete_of_not_busy hp

/-- Settles O9. -/
theorem invariantHoldsAfterReset : Obligations.InvariantHoldsAfterReset :=
  ⟨inv_resetWith Config.cfg, inv_resetEvent⟩

/-- Settles O13. -/
theorem statusBits : Obligations.StatusBits := by
  refine ⟨fun s => ?_, fun s h => ?_, fun s v hp => hostWrite_of_idle v hp (regAt_addr .status), fun s => rfl⟩
  · rw [hostRead_status]
    obtain ⟨hbusy, hdone, hfaulted⟩ := status_bits s
    refine ⟨hbusy, hdone, hfaulted, ?_⟩
    rw [status_toNat]
    split_ifs <;> omega
  · rw [hostRead_status]
    exact status_eq_of_inv h

/-- Settles O25: the read of a reset state, which a reset event's own two lists do not reach. -/
theorem hostReadsAfterReset : Obligations.HostReadsAfterReset :=
  ⟨fun s a => (congrArg BitVec.toNat (hostRead_resetEvent s a)).trans (hostRead_resetWith s.cfg a),
    hostRead_resetWith Config.cfg⟩

/-- Settles O34: quotient and remainder by 32. -/
theorem positionIsCellAndOffset : Obligations.PositionIsCellAndOffset := by
  intro p
  rw [cellOf_toNat, offOf_toNat, Nat.div_add_mod]

end Sys2Proof.Machine

/-! # The register space and the ROM spaces (spec/20_memory.md)

The count of a walk's samples, then what a host's write does at each address, then the statements. -/

namespace Sys2Proof.Machine

/-! ### How often a cast reads its tables -/

theorem walkSamples_le (c : Cfg) : ∀ (n : Nat) (w : Walk), walkSamples c n w ≤ n
  | 0, _ => le_rfl
  | n + 1, w => by
    unfold walkSamples
    split
    case h_2 t _ =>
      have := walkSamples_le c n t
      omega
    all_goals omega

/-- A walk that reaches a wall has sampled one cell for each step it has counted (R161 to R163), the wall's included. -/
theorem walk_ok_steps {c : Cfg} {e : WalkEnd} : ∀ {n : Nat} {w : Walk}, walk c n w = .ok e →
    e.steps = w.steps + BitVec.ofNat 4 (walkSamples c n w)
  | 0, w, h => by cases h
  | n + 1, w, h => by
    unfold walk at h
    unfold walkSamples
    cases hs : w.step c with
    | fails f => simp [hs] at h
    | hit e' =>
      obtain ⟨m, -, -, rfl⟩ := step_hit hs
      obtain rfl : w.ended m = e := by simpa [hs] using h
      rfl
    | goOn t =>
      obtain ⟨m, -, -, -, rfl⟩ := step_goOn hs
      have hsteps : e.steps = w.steps + 1 + _ := walk_ok_steps (by simpa [hs] using h)
      rw [hsteps, BitVec.add_assoc, BitVec.ofNat_add]
      rfl

/-- Within the machine's fuel the four bits of STEPS do not wrap, so STEPS is the number of samples itself. -/
theorem walk_ok_steps_toNat {c : Cfg} {posx posy : Byte} {a : Active} {e : WalkEnd}
    (h : walk c walkFuel (setup posx posy a) = .ok e) :
    e.steps.toNat = walkSamples c walkFuel (setup posx posy a) := by
  have hle : walkSamples c walkFuel (setup posx posy a) ≤ 15 := walkSamples_le c walkFuel _
  have hsteps : e.steps = 0#4 + _ := walk_ok_steps h
  rw [hsteps, BitVec.zero_add, BitVec.toNat_ofNat, Nat.mod_eq_of_lt (by omega)]

/-- A cast that completes has passed its dispatch and its walk, whose step count it commits (R150). -/
theorem castColumn_ok {c : Cfg} {posx posy : Byte} {angle column : BitVec 6} {o : CastOut}
    (h : castColumn c posx posy angle column = .ok o) :
    ∃ a e, dispatch c (rayGen c angle column) posx posy = .ok a ∧ walk c walkFuel (setup posx posy a) = .ok e ∧
      o.steps = e.steps := by
  cases ha : dispatch c (rayGen c angle column) posx posy with
  | error k => simp [castColumn, ha, bind, Except.bind] at h
  | ok a =>
    cases he : walk c walkFuel (setup posx posy a) with
    | error k => simp [castColumn, ha, he, bind, Except.bind] at h
    | ok e =>
      cases hr : compose c (correct e.side e.delta) e.last with
      | error k => simp [castColumn, ha, he, hr, bind, Except.bind] at h
      | ok r =>
        simp only [castColumn, ha, he, hr, bind, Except.bind] at h
        cases h
        exact ⟨a, e, rfl, he, rfl⟩

theorem recipReads_bounds (a : Active) : 1 ≤ a.recipReads ∧ a.recipReads ≤ 2 := by
  cases a <;> simp [Active.recipReads]

theorem castReads_of_ok {c : Cfg} {posx posy : Byte} {angle column : BitVec 6} {a : Active} {e : WalkEnd}
    (ha : dispatch c (rayGen c angle column) posx posy = .ok a) (he : walk c walkFuel (setup posx posy a) = .ok e) :
    castReads c posx posy angle column =
      { dirrom := 1, recrom := a.recipReads, gridrom := e.steps.toNat, hgtrom := 1 } := by
  simp only [castReads, ha, he, walk_ok_steps_toNat he]

/-! ### The host's writes by address -/

theorem hostWrite_addr {s : State} {a : RegAddr} (r : Reg) (v : Byte) (hp : s.phase = .idle)
    (ha : a.toNat = r.addr.toNat) : s.hostWrite a v = s.writeReg r v := by
  obtain rfl := BitVec.eq_of_toNat_eq ha
  exact hostWrite_of_idle v hp (regAt_addr r)

theorem setWidth_eq_ofNat_mod {n m : Nat} (v : Byte) (h : 2 ^ n = m) : v.setWidth n = BitVec.ofNat n (v.toNat % m) := by
  subst h
  apply BitVec.eq_of_toNat_eq
  simp

theorem regAt_readOnly {a : RegAddr} {r : Reg} : 8 ≤ a.toNat → regAt a = some r → r.access = .ro := by
  have h : ∀ a : RegAddr, 8 ≤ a.toNat → ∀ r ∈ regAt a, r.access = .ro := by decide
  exact fun ha => h a ha r

theorem writeReg_readOnly {s : State} {r : Reg} {v : Byte} (h : r.access = .ro) : s.writeReg r v = s := by
  cases r <;> simp_all [Reg.access, State.writeReg]

/-- Above CMD there are only read-only registers and reserved addresses (R54), and an idle engine ignores a write to them. -/
theorem hostWrite_above_cmd {s : State} {a : RegAddr} (v : Byte) (hp : s.phase = .idle) (ha : 8 ≤ a.toNat) :
    s.hostWrite a v = s := by
  cases hr : regAt a with
  | none => simp [State.hostWrite, hp, hr]
  | some r => rw [hostWrite_of_idle v hp hr, writeReg_readOnly (regAt_readOnly ha hr)]

theorem fmtField_toNat (v : Byte) : (fmtField v).toNat = v.toNat / 64 := by
  have := v.isLt
  simp [fmtField, BitVec.extractLsb'_toNat, Nat.shiftRight_eq_div_pow]
  omega

theorem lowField_toNat (v : Byte) : (lowField v).toNat = v.toNat % 64 := by
  simp [lowField, BitVec.extractLsb'_toNat]

theorem decodeZ_eq_reserved_iff : ∀ op : BitVec 6, decodeZ op = .reserved ↔ 0x0A ≤ op.toNat := by
  decide

/-- The reserved bytes (R86): the rest of Format Z, and the two formats without a command. -/
theorem decode_eq_reserved_iff (v : Byte) :
    decode v = .reserved ↔ (0x0A ≤ v.toNat ∧ v.toNat ≤ 0x3F) ∨ 0x80 ≤ v.toNat := by
  have hf := fmtField_toNat v
  unfold decode
  split
  next h =>
    rw [decodeZ_eq_reserved_iff, lowField_toNat]
    omega
  next h =>
    simp only [reduceCtorEq, false_iff]
    omega
  next h0 h1 =>
    simp only [true_iff, imp_false] at h0 h1 ⊢
    omega

/-- The accept by the byte's number (R32, R201). -/
theorem accept_eq (s : State) (v : Byte) :
    s.accept v =
      if (0x0A ≤ v.toNat ∧ v.toNat ≤ 0x3F) ∨ 0x80 ≤ v.toNat then s.raiseFault .illCmd
      else { s with pend := v, done := false, phase := .busy } := by
  cases hd : decode v with
  | command i => rw [accept_of_command hd, if_neg (mt (decode_eq_reserved_iff v).2 (by simp [hd]))]
  | reserved => rw [accept_of_reserved hd, if_pos ((decode_eq_reserved_iff v).1 hd)]

/-! ### The statements -/

/-- Settles O53: the counts are those of the dispatch and the walk the cast has passed. -/
theorem completedCastRomReads : Obligations.CompletedCastRomReads := by
  intro s t h hp
  rcases perform_map_cases h with ⟨o, ho, rfl⟩ | ⟨k, -, rfl⟩
  · obtain ⟨a, e, ha, he, hsteps⟩ := castColumn_ok ho
    obtain ⟨hlo, hhi⟩ := recipReads_bounds a
    have hreads : romReads .cast s = ⟨1, a.recipReads, e.steps.toNat, 1⟩ := castReads_of_ok ha he
    rw [hreads]
    exact ⟨rfl, hlo, hhi, congrArg BitVec.toNat hsteps.symm, rfl⟩
  · simp at hp

/-- Settles O15: the narrow registers are read zero-extended, STATUS is composed from its three bits, and the others are read as
they are. -/
theorem hostReadsTheRegisterMap : Obligations.HostReadsTheRegisterMap := by
  refine ⟨fun s => ⟨rfl, rfl, setWidth8_toNat s.angle (by decide), setWidth8_toNat s.column (by decide),
    setWidth8_toNat s.row (by decide), rfl, rfl, rfl, ?_, setWidth8_toNat s.fcode (by decide),
    setWidth8_toNat s.glyph (by decide), rfl, rfl, rfl, rfl, rfl, rfl, setWidth8_toNat s.hitcell (by decide),
    setWidth8_toNat s.steps (by decide)⟩, fun s a ha => hostRead_of_reserved ((regAt_eq_none_iff a).2 ha)⟩
  rw [hostRead_status, status_toNat]
  omega

/-- Settles O16. -/
theorem hostWritesByPhaseAndAddress : Obligations.HostWritesByPhaseAndAddress := by
  refine fun s a v => ⟨hostWrite_of_faulted a v, hostWrite_of_busy a v, fun hp => ⟨hostWrite_addr .posx v hp,
    hostWrite_addr .posy v hp, fun ha => ?angle, fun ha => ?column, fun ha => ?row, hostWrite_addr .arg v hp,
    hostWrite_addr .result v hp, fun ha => ?cmd, hostWrite_above_cmd v hp⟩⟩
  case angle => rw [hostWrite_addr .angle v hp ha, State.writeReg, setWidth_eq_ofNat_mod (m := 64) v rfl]
  case column => rw [hostWrite_addr .column v hp ha, State.writeReg, setWidth_eq_ofNat_mod (m := 64) v rfl]
  case row => rw [hostWrite_addr .row v hp ha, State.writeReg, setWidth_eq_ofNat_mod (m := 16) v rfl]
  case cmd => exact (hostWrite_addr .cmd v hp ha).trans (accept_eq s v)

/-- Settles O17: neither a read nor a write depends on the list of events. -/
theorem stepLetsTheNextEventAct : Obligations.StepLetsTheNextEventAct := by
  refine fun s rest => ⟨fun a hs => ?read, fun a v hs => ?write, fun hs => step_of_cons hs⟩
  case read =>
    rw [step_of_cons hs, takeEvent, hostRead_env s rest s.reads a]
    rfl
  case write => rw [step_of_cons hs, takeEvent, hostWrite_env]

end Sys2Proof.Machine

/-! # The command encoding (spec/30_encoding.md)

First a byte as its two fields, which gives both directions between bytes and commands and ties the rows of the opcode table to
them; then how a busy engine runs through a WAIT; then the statements. -/

namespace Sys2Proof.Machine

/-! ### The byte and its fields -/

/-- A byte is its field `fmt` over its low field (R81, R82). -/
theorem fmtField_append_lowField (v : Byte) : fmtField v ++ lowField v = v :=
  BitVec.eq_of_toNat_eq (by rw [append_toNat, fmtField_toNat, lowField_toNat]; omega)

theorem decode_of_fmt_z {v : Byte} (h : fmtField v = Format.z.bits) : decode v = decodeZ (lowField v) := by
  simp [decode, h, Format.bits]

theorem decode_of_fmt_i {v : Byte} (h : fmtField v = Format.i.bits) : decode v = .command (.casti (lowField v)) := by
  simp [decode, h, Format.bits]

/-- The `op` of a Format Z command and the command give each other (R83). -/
theorem decodeZ_eq_command_iff {op : BitVec 6} {i : Instr} :
    decodeZ op = .command i ↔ i.format = .z ∧ i.low = op := by
  constructor
  · intro h
    unfold decodeZ at h
    split at h <;> cases h
    all_goals exact ⟨rfl, BitVec.eq_of_toNat_eq (Eq.symm ‹_›)⟩
  · rintro ⟨hz, rfl⟩
    cases i with
    | casti c => cases hz
    | _ => rfl

/-- Decoding a byte reads off a command's two fields (R81 to R83). -/
theorem decode_fields {v : Byte} {i : Instr} (h : decode v = .command i) :
    fmtField v = i.format.bits ∧ lowField v = i.low := by
  unfold decode at h
  split at h
  next hf =>
    obtain ⟨hz, hlow⟩ := decodeZ_eq_command_iff.1 h
    exact ⟨BitVec.eq_of_toNat_eq (by rw [hf, hz]; rfl), hlow.symm⟩
  next hf =>
    cases h
    exact ⟨BitVec.eq_of_toNat_eq hf, rfl⟩
  next => cases h

theorem decode_encode (i : Instr) : decode (encode i) = .command i := by
  have hfmt := fmtField_encode i
  cases hi : i.format with
  | z =>
    rw [decode_of_fmt_z (hi ▸ hfmt), lowField_encode]
    exact decodeZ_eq_command_iff.2 ⟨hi, rfl⟩
  | i =>
    rw [decode_of_fmt_i (hi ▸ hfmt), lowField_encode]
    cases i with
    | casti c => rfl
    | _ => cases hi

theorem encode_of_decode {v : Byte} {i : Instr} (h : decode v = .command i) : encode i = v := by
  obtain ⟨hfmt, hlow⟩ := decode_fields h
  rw [encode, ← hfmt, ← hlow, fmtField_append_lowField]

theorem encode_casti_toNat (c : BitVec 6) : (encode (.casti c)).toNat = 0x40 + c.toNat :=
  append_toNat _ _

/-! ### The opcode table -/

/-- The mask of CASTI's row looks at the field `fmt` alone (R82). -/
theorem and_fmtMask (v : Byte) : v &&& 0xC0 = fmtField v ++ 0#6 :=
  calc v &&& 0xC0 = (fmtField v ++ lowField v) &&& (BitVec.allOnes 2 ++ 0#6) := by rw [fmtField_append_lowField]; rfl
    _ = fmtField v ++ 0#6 := by rw [BitVec.and_append, BitVec.and_zero, BitVec.and_allOnes]

/-- The row of the one Format I command (R82, R83). -/
def castiRow : OpRow := ⟨"CASTI", 0xC0, 0x40⟩

/-- CASTI's row covers the bytes of Format I. -/
theorem castiRow_covers_iff (v : Byte) : castiRow.covers v = true ↔ fmtField v = Format.i.bits := by
  have hcovers : castiRow.covers v = (fmtField v ++ 0#6 == Format.i.bits ++ 0#6) := by rw [← and_fmtMask]; rfl
  rw [hcovers, beq_iff_eq]
  exact ⟨fun h => by simpa only [fmtField_append] using congrArg fmtField h, fun h => by rw [h]⟩

/-- A row covers the bytes of the commands it names (R83). -/
theorem covers_of_mnemonic {r : OpRow} {v : Byte} {i : Instr} (hr : r ∈ opcodeTable) (hd : decode v = .command i)
    (h : r.mnemonic = i.mnemonic) : r.covers v = true := by
  obtain rfl := encode_of_decode hd
  revert r
  cases i with
  | casti c =>
    have hrow : ∀ r ∈ opcodeTable, r.mnemonic = "CASTI" → r = castiRow := by decide
    intro r hr h
    rw [hrow r hr h, castiRow_covers_iff]
    exact fmtField_encode _
  | _ => decide

/-- The table is a row with its whole byte for each Format Z command, then CASTI's row (R83). -/
theorem opcodeTable_eq : opcodeTable =
    [Instr.nop, .cast, .strip, .rot, .lddir, .ldrec, .ldhgt, .ldcell, .addx, .addy].map
      (fun i => ⟨i.mnemonic, 0xFF, encode i⟩) ++ [castiRow] :=
  rfl

theorem row_cases {r : OpRow} (hr : r ∈ opcodeTable) :
    (∃ i : Instr, r = ⟨i.mnemonic, 0xFF, encode i⟩) ∨ r = castiRow := by
  rw [opcodeTable_eq, List.mem_append, List.mem_map, List.mem_singleton] at hr
  exact hr.imp_left fun ⟨i, _, hi⟩ => ⟨i, hi.symm⟩

/-- A row covers the bytes of the commands it names, and no others (R83). -/
theorem covers_iff {r : OpRow} (v : Byte) (hr : r ∈ opcodeTable) :
    r.covers v = true ↔ ∃ i, decode v = .command i ∧ i.mnemonic = r.mnemonic := by
  refine ⟨fun h => ?_, fun ⟨i, hd, hm⟩ => covers_of_mnemonic hr hd hm.symm⟩
  rcases row_cases hr with ⟨i, rfl⟩ | rfl
  · obtain rfl : v = encode i := (BitVec.and_allOnes (x := v)).symm.trans (by simpa [OpRow.covers] using h)
    exact ⟨i, decode_encode i, rfl⟩
  · exact ⟨_, decode_of_fmt_i ((castiRow_covers_iff v).1 h), rfl⟩

/-- Exactly one row has a command's name: the names in the table are distinct, and every command's is among them. -/
theorem opcodeTable_filter_mnemonic (i : Instr) :
    (opcodeTable.filter fun r => i.mnemonic = r.mnemonic).map OpRow.mnemonic = [i.mnemonic] := by
  have hnames : ∀ m ∈ opcodeTable.map OpRow.mnemonic,
      (opcodeTable.filter fun r => m = r.mnemonic).map OpRow.mnemonic = [m] := by decide
  exact hnames _ (opcodeTable_row_of_mnemonic i)

/-! ### A WAIT on a busy engine -/

theorem status_of_busy {s : State} (hp : s.phase = .busy) (hd : s.done = false) : s.status = 0x01 := by
  simp [State.status, hp, hd]

/-- One read of a WAIT: the byte is recorded, and what is left of the loop stands in front (R89). -/
theorem step_poll {s : State} {n : Nat} {rest : List Event} (hs : s.inputs = .poll n :: rest) :
    step s = .next { s with inputs := pollRest s.phase n ++ rest, reads := s.reads ++ [s.status] } :=
  step_of_cons hs

/-- The reads of a WAIT that find the engine busy return 0x01 and leave the engine's turn and one more read (R89, R240). -/
theorem run_busy_polls (k : Nat) : ∀ (n : Nat) {s : State} {rest : List Event},
    s.phase = .busy → s.done = false → s.inputs = .poll n :: rest →
      run (n + 1 + k) s =
        run k { s with inputs := .engine :: .poll 0 :: rest, reads := s.reads ++ List.replicate (n + 1) 0x01 }
  | 0, s, rest, hp, hdone, hs => by
    rw [Nat.add_comm, run_succ (step_poll hs), hp, status_of_busy hp hdone]
    rfl
  | n + 1, s, rest, hp, hdone, hs => by
    have hrest := run_busy_polls k n (s := { s with inputs := .poll n :: rest, reads := s.reads ++ [0x01] }) hp hdone rfl
    rw [Nat.add_right_comm, run_succ (step_poll hs), hp, status_of_busy hp hdone]
    simpa [pollRest, List.replicate_succ, hp] using hrest

/-! ### What no command changes -/

/-- A command leaves `pend` and the model's own two lists (log 2, 3, 8). -/
theorem exec_pend_inputs_reads {i : Instr} {s t : State} (h : exec i s = .next t) :
    t.pend = s.pend ∧ t.inputs = s.inputs ∧ t.reads = s.reads := by
  rcases exec_cases h with ⟨u, rfl, -, -, hpend, -, hinputs, hreads⟩ | ⟨k, rfl, -⟩
  · exact ⟨hpend, hinputs, hreads⟩
  · exact ⟨rfl, rfl, rfl⟩

/-! ### The statements -/

/-- Settles O1: a byte and a command have the same two fields. -/
theorem decodeInvertsEncode : Obligations.DecodeInvertsEncode :=
  ⟨decode_encode, fun _ _ => encode_of_decode⟩

/-- Settles O2: the rows that cover a byte are the rows with its command's name. -/
theorem decodeAgreesWithOpcodeTable : Obligations.DecodeAgreesWithOpcodeTable := by
  refine fun v => ⟨fun i hd => ?_, fun hd => ?_⟩
  · rw [← opcodeTable_filter_mnemonic i]
    congr 1
    refine List.filter_congr fun r hr => ?_
    rw [Bool.eq_iff_iff, covers_iff v hr]
    simp [hd]
  · rw [List.filter_eq_nil_iff]
    intro r hr
    rw [covers_iff v hr]
    simp [hd]

/-- Settles O18: the busy reads, the engine's turn, and the read that finds the command ended. -/
theorem waitEnds : Obligations.WaitEnds := by
  intro s i n rest hp hdone hd hs
  obtain ⟨u, hu⟩ := exec_next i { s with inputs := .poll 0 :: rest, reads := s.reads ++ List.replicate (n + 1) 0x01 }
  have hturn : step { s with
      inputs := .engine :: .poll 0 :: rest, reads := s.reads ++ List.replicate (n + 1) 0x01 } = .next u :=
    Eq.trans (stepPerformsThePendingCommand.1 _ i hp hd rfl) hu
  have hphase : u.phase ≠ .busy := exec_phase hu
  obtain ⟨-, hinputs, -⟩ := exec_pend_inputs_reads hu
  obtain ⟨hbusy, -⟩ := status_bits u
  refine ⟨u, hu, Bool.eq_false_iff.2 (mt hbusy.1 hphase), ?_⟩
  rw [run_busy_polls 2 n hp hdone hs, run_succ hturn, run_one, step_poll hinputs, pollRest_of_not_busy 0 hphase,
    List.nil_append]

/-- Settles O54. -/
theorem commandFrame : Obligations.CommandFrame := by
  intro i s t h
  obtain ⟨hpend, hinputs, hreads⟩ := exec_pend_inputs_reads h
  refine ⟨fun r => exec_readReg h, ?_, hpend, exec_cfg h, hinputs, hreads⟩
  rcases exec_cases h with ⟨u, rfl, -, hfcode, -⟩ | ⟨k, rfl, -⟩
  · exact .inl ⟨rfl, rfl, hfcode⟩
  · exact .inr ⟨rfl, rfl, fun r => readReg_raiseFault⟩

/-- Settles O3: eleven closed bytes. -/
theorem specBytesDecode : Obligations.SpecBytesDecode := by
  unfold Obligations.SpecBytesDecode
  decide

/-- Settles O4. -/
theorem reservedBytesFaultAtTheWrite : Obligations.ReservedBytesFaultAtTheWrite := by
  refine ⟨decode_eq_reserved_iff, fun s v hp hd => ?_⟩
  rw [hostWrite_cmd_of_idle v hp, accept_of_reserved hd]
  rfl

/-- Settles O5: the commit of a CASTI stores the immediate itself. -/
theorem castiImmediateIsTheColumn : Obligations.CastiImmediateIsTheColumn := by
  refine ⟨fun c => ⟨encode_casti_toNat c, c.isLt⟩, fun s t c h hp => ?_⟩
  rcases perform_map_cases h with ⟨o, -, rfl⟩ | ⟨k, -, rfl⟩
  · exact setWidth8_toNat c (by decide)
  · simp at hp

end Sys2Proof.Machine

/-! # The lookup tables (spec/40_lookup_tables.md)

First the probes' index fields as numbers and what a probe reads through them; then the statements. -/

namespace Sys2Proof.Machine

/-! ### The index of a probe, and the entry it reads -/

theorem argIndex_toNat (a : Byte) : (argIndex a).toNat = a.toNat % 64 := by
  simp [argIndex, BitVec.extractLsb'_toNat]

theorem indexMx_toNat (i : BitVec 6) : (indexMx i).toNat = i.toNat % 8 := by
  simp [indexMx, BitVec.extractLsb'_toNat]

theorem indexMy_toNat (i : BitVec 6) : (indexMy i).toNat = i.toNat / 8 := by
  have := i.isLt
  simp [indexMy, BitVec.extractLsb'_toNat, Nat.shiftRight_eq_div_pow]
  omega

/-- `ARG[7:6]` are ignored (R110). -/
theorem readDir_argIndex (c : Cfg) (a : Byte) : readDir c (argIndex a) = c.dir[a.toNat % 64] := by
  simp only [readDir, argIndex_toNat]

/-- `ARG[5:0]` is `{my, mx}` (R113). -/
theorem readGrid_argIndex (c : Cfg) (a : Byte) :
    readGrid c (indexMx (argIndex a)) (indexMy (argIndex a)) = c.grid[a.toNat / 8 % 8][a.toNat % 8] := by
  have hx : a.toNat % 64 % 8 = a.toNat % 8 := Nat.mod_mod_of_dvd _ (by decide)
  have hy : a.toNat % 64 / 8 = a.toNat / 8 % 8 := by omega
  simp only [readGrid, indexMx_toNat, indexMy_toNat, argIndex_toNat, hx, hy]

theorem cellByte_eq_ite (g : GridCell) : cellByte g = if g = .wall then 1 else 0 := by
  cases g <;> rfl

/-! ### The statements -/

/-- Settles O29. -/
theorem lddirShowsADirection : Obligations.LddirShowsADirection := by
  refine ⟨by decide, fun s => ?_⟩
  rw [exec, execLddir, readDir_argIndex, perform_ok, State.completed]

/-- Settles O30: a byte indexes all 256 entries, so a probe of these two tables reads at ARG itself and has nothing to check. -/
theorem tableProbesShowTheEntry : Obligations.TableProbesShowTheEntry := by
  refine ⟨by decide, by decide, fun s => ⟨?ldrec, ?ldhgt⟩⟩
  case ldrec => rw [exec, execLdrec, readRecip, perform_ok, State.completed]
  case ldhgt => rw [exec, execLdhgt, readHeight, perform_ok, State.completed]

/-- Settles O31. -/
theorem ldcellShowsACell : Obligations.LdcellShowsACell := by
  refine ⟨by decide, fun s => ?_⟩
  rw [exec, execLdcell, readGrid_argIndex, cellByte_eq_ite, perform_ok, State.completed]

end Sys2Proof.Machine

/-! # The arithmetic (spec/41_arithmetic.md)

First what each primitive computes that the laws above do not yet say, as numbers; then the statements. -/

namespace Sys2Proof.Machine

/-! ### The adder and the subtractor -/

theorem add8_fst_toNat (a b : Byte) : (add8 a b).1.toNat = (a.toNat + b.toNat) % 256 := by
  rw [add8_fst]
  exact BitVec.toNat_add a b

theorem add8_snd_iff (a b : Byte) : (add8 a b).2 = true ↔ 256 ≤ a.toNat + b.toNat :=
  decide_eq_true_iff

theorem sub8_fst_toNat (a b : Byte) : (sub8 a b).1.toNat = (a.toNat + 256 - b.toNat) % 256 := by
  have hb := b.isLt
  rw [sub8_fst, BitVec.toNat_sub]
  omega

theorem sub8_snd_iff (a b : Byte) : (sub8 a b).2 = true ↔ a.toNat < b.toNat :=
  decide_eq_true_iff

/-- Sum and difference wrap at the same modulus, so the discarded carry is not missed (R131). -/
theorem sub8_add8 (a b : Byte) : (sub8 (add8 a b).1 b).1 = a := by
  rw [sub8_fst, add8_fst, BitVec.add_sub_cancel]

theorem add8_fst_eq_ofNat (a b : Byte) : (add8 a b).1 = BitVec.ofNat 8 ((a.toNat + b.toNat) % 256) :=
  BitVec.eq_of_toNat_eq (by rw [add8_fst_toNat, BitVec.toNat_ofNat, Nat.mod_mod])

/-- ROT's increment: the adder's low six bits wrap at 64 (R135). -/
theorem add8_one_low_eq_ofNat (k : BitVec 6) :
    (add8 (k.setWidth 8) 1).1.setWidth 6 = BitVec.ofNat 6 ((k.toNat + 1) % 64) := by
  apply BitVec.eq_of_toNat_eq
  rw [BitVec.toNat_setWidth, add8_fst_toNat, setWidth8_toNat k (by decide), BitVec.toNat_ofNat]
  change (k.toNat + 1) % 256 % 64 = (k.toNat + 1) % 64 % 64
  omega

/-! ### The other primitives -/

theorem neg8_toInt_of_ne {s : Byte} (h : s.toInt ≠ -128) : (neg8 s).toInt = -s.toInt := by
  have hs := byte_toInt_bounds s
  rw [neg8_toInt, Int.bmod_eq_of_le (by omega) (by omega)]

/-- The quotient of a product reaches 256, so it does not fit a byte (R132). -/
theorem div64_mul8x8_bounds (a b : Byte) : -254 ≤ (div64 (mul8x8 a b)).toInt ∧ (div64 (mul8x8 a b)).toInt ≤ 256 := by
  obtain ⟨hmul, hlow, hhigh⟩ := mul8x8_toInt a b
  rw [div64_toInt, hmul]
  exact ⟨Int.tdiv_le_tdiv (by decide) hlow, Int.tdiv_le_tdiv (by decide) hhigh⟩

theorem lt8_iff (a b : Byte) : lt8 a b = true ↔ a.toNat < b.toNat :=
  decide_eq_true_iff

theorem div3_toNat (h : BitVec 7) : (div3 h).toNat = h.toNat / 3 := by
  have hh := h.isLt
  rw [div3, BitVec.toNat_ofNat, Nat.mod_eq_of_lt (by omega)]

/-! ### The statements -/

/-- Settles O26: NOP's only effect is its completion. -/
theorem nopOnlyCompletes : Obligations.NopOnlyCompletes := by
  refine ⟨by decide, fun s => ?_⟩
  rw [exec, execNop, perform_ok, State.completed]

/-- Settles O27. -/
theorem rotAdvancesTheAngle : Obligations.RotAdvancesTheAngle := by
  refine ⟨by decide, fun s => ?_⟩
  rw [exec, execRot, add8_one_low_eq_ofNat, perform_ok, State.completed]

/-- Settles O28. -/
theorem addsWrapModulo256 : Obligations.AddsWrapModulo256 := by
  refine ⟨by decide, by decide, fun s => ⟨?addx, ?addy⟩⟩
  case addx => rw [exec, execAddx, add8_fst_eq_ofNat, perform_ok, State.completed]
  case addy => rw [exec, execAddy, add8_fst_eq_ofNat, perform_ok, State.completed]

/-- Settles O35. -/
theorem adderSumAndCarry : Obligations.AdderSumAndCarry :=
  fun a b => ⟨add8_fst_toNat a b, add8_snd_iff a b⟩

/-- Settles O36. -/
theorem subtractorUndoesTheAdder : Obligations.SubtractorUndoesTheAdder :=
  fun a b => ⟨sub8_fst_toNat a b, sub8_snd_iff a b, sub8_add8 a b⟩

/-- Settles O37: each primitive narrows an exact result once, and only `neg8` at -128 and `narrow_sum` can wrap. -/
theorem signedPrimitives : Obligations.SignedPrimitives := by
  refine ⟨fun s => neg8_toInt_of_ne, by decide, fun a b => ?mul, div64_toInt, div64_mul8x8_bounds, narrowSum_toInt⟩
  obtain ⟨hmul, hlow, hhigh⟩ := mul8x8_toInt a b
  exact ⟨hmul, hmul ▸ hlow, hmul ▸ hhigh⟩

/-- Settles O38. -/
theorem unsignedPrimitives : Obligations.UnsignedPrimitives := by
  refine ⟨fun s => ⟨abs8_toNat s, ?abs⟩, fun e d he => ?scale, lt8_iff, fun h => ⟨div3_toNat h, ?third⟩⟩
  case abs =>
    have hs := byte_toInt_bounds s
    rw [abs8_toNat]
    omega
  case scale =>
    obtain ⟨hval, hle⟩ := scale32_toNat e d he
    exact ⟨hval, hval.le.trans hle⟩
  case third =>
    have hh := h.isLt
    rw [div3_toNat]
    omega

end Sys2Proof.Machine

/-! # The cast (spec/42_raycast.md)

First the ray within the direction bound; then what CAST and CASTI answer where the walk over the integers ends, breaks off or has no
ray, read off `castColumn_spec`; then the walk inside a wall border; then the walk with one axis and with both; then the source's
scenarios; then the statements. -/

namespace Sys2Proof.Machine

/-! ### The ray within the direction bound -/

theorem readDir_bound {c : Cfg} (h : c.WfDirBound) (angle : BitVec 6) :
    (readDir c angle).dx.toInt.natAbs ≤ 32 ∧ (readDir c angle).dy.toInt.natAbs ≤ 32 :=
  h angle.toFin

theorem tdiv64_natAbs (d k : Int) : ((d * k).tdiv 64).natAbs = d.natAbs * k.natAbs / 64 := by
  rw [Int.natAbs_tdiv, Int.natAbs_mul]
  rfl

/-- The scaled plane component is no longer than the component: the column factor is at most 64 in magnitude (R152). -/
theorem tdiv64_natAbs_le (d : Int) {k : Int} (hk : k.natAbs ≤ 64) : ((d * k).tdiv 64).natAbs ≤ d.natAbs := by
  rw [tdiv64_natAbs]
  exact Nat.div_le_of_le_mul (Nat.mul_comm 64 _ ▸ Nat.mul_le_mul_left _ hk)

/-- In every column but the first it is strictly shorter, unless it is 0. -/
theorem tdiv64_natAbs_lt {d k : Int} (hd : d ≠ 0) (hk : k.natAbs < 64) : ((d * k).tdiv 64).natAbs < d.natAbs := by
  rw [tdiv64_natAbs]
  exact Nat.div_lt_of_lt_mul (Nat.mul_comm 64 _ ▸ Nat.mul_lt_mul_of_pos_left hk (Int.natAbs_pos.2 hd))

/-- R153 (a): neither the negation nor the sums wrap. -/
theorem rayGen_exact {c : Cfg} (h : c.WfDirBound) (angle column : BitVec 6) :
    (rayGen c angle column).x.toInt = (readDir c angle).dx.toInt +
        ((readDir c angle).dy.toInt * (2 * (column.toNat : Int) - 64)).tdiv 64 ∧
      (rayGen c angle column).y.toInt = (readDir c angle).dy.toInt +
        (-(readDir c angle).dx.toInt * (2 * (column.toNat : Int) - 64)).tdiv 64 ∧
      (rayGen c angle column).x.toInt.natAbs ≤ 64 ∧ (rayGen c angle column).y.toInt.natAbs ≤ 64 := by
  obtain ⟨hdx, hdy⟩ := readDir_bound h angle
  have hcolumn := column.isLt
  have hk : (2 * (column.toNat : Int) - 64).natAbs ≤ 64 := by omega
  have hx := tdiv64_natAbs_le (readDir c angle).dy.toInt hk
  have hy := tdiv64_natAbs_le (-(readDir c angle).dx.toInt) hk
  simp only [rayGen, narrowSum_toInt, div64_toInt, (mul8x8_toInt _ _).1, columnFactor_toInt]
  rw [neg8_toInt_of_ne (by omega), Int.bmod_eq_of_le (by omega) (by omega), Int.bmod_eq_of_le (by omega) (by omega)]
  exact ⟨rfl, rfl, by omega, by omega⟩

/-- A plane component scaled by less than 64 cannot cancel the direction in both components, and scaled by -64 it only turns a nonzero
direction (R155). -/
theorem direction_eq_zero_of_ray {dx dy k : Int} (hk : k.natAbs < 64 ∨ k = -64) (hx : dx + (dy * k).tdiv 64 = 0)
    (hy : dy + (-dx * k).tdiv 64 = 0) : dx = 0 ∧ dy = 0 := by
  rcases hk with hk | rfl
  · have hle : ∀ {d : Int}, d ≠ 0 → ((d * k).tdiv 64).natAbs < d.natAbs := fun hd => tdiv64_natAbs_lt hd hk
    by_cases hdx : dx = 0
    · exact ⟨hdx, by simpa [hdx] using hy⟩
    · by_cases hdy : dy = 0
      · exact ⟨by simpa [hdy] using hx, hdy⟩
      · have := hle hdy
        have := hle (neg_ne_zero.2 hdx)
        omega
  · have hturn : ∀ d : Int, (d * -64).tdiv 64 = -d := fun d => by
      rw [Int.mul_neg, ← Int.neg_mul, Int.mul_tdiv_cancel _ (by decide)]
    rw [hturn] at hx hy
    omega

theorem rayGen_ne_zero {c : Cfg} (hb : c.WfDirBound) (hn : c.WfDirNonzero) (angle column : BitVec 6) :
    ¬((rayGen c angle column).x = 0 ∧ (rayGen c angle column).y = 0) := by
  rintro ⟨hx, hy⟩
  obtain ⟨ex, ey, -, -⟩ := rayGen_exact hb angle column
  rw [hx] at ex
  rw [hy] at ey
  have hcolumn := column.isLt
  obtain ⟨hdx, hdy⟩ := direction_eq_zero_of_ray (by omega) ex.symm ey.symm
  exact hn angle.toFin ⟨(byte_toInt_eq_zero _).1 hdx, (byte_toInt_eq_zero _).1 hdy⟩

theorem intRay_ne_zero {c : Cfg} (hb : c.WfDirBound) (hn : c.WfDirNonzero) (angle column : BitVec 6) :
    intRay c angle column ≠ (0, 0) := by
  intro h
  obtain ⟨hx, hy⟩ := rayGen_int c angle column
  rw [h] at hx hy
  exact rayGen_ne_zero hb hn angle column ⟨(byte_toInt_eq_zero _).1 hx, (byte_toInt_eq_zero _).1 hy⟩

/-! ### What a cast answers, by the walk over the integers -/

/-- A ray (0, 0) has no active axis, so there is no walk to end or to break off (R154, R155). -/
theorem intStart_chosen_of_zero {c : Cfg} {posx posy : Byte} {angle column : BitVec 6}
    (h : intRay c angle column = (0, 0)) : (intStart c posx posy angle column).chosen = none := by
  simp [intStart, h, intAxis, IntWalk.chosen, IntWalk.takesX]

theorem IntWalk.Ends.chosen_ne_none {c : Cfg} {w : IntWalk} {e : IntEnd} (h : w.Ends c e) : w.chosen ≠ none := by
  cases h <;> simp_all

theorem IntWalk.Fails.chosen_ne_none {c : Cfg} {w : IntWalk} {f : FaultCode} (h : w.Fails c f) : w.chosen ≠ none := by
  cases h <;> simp_all

section
variable {c : Cfg} {posx posy : Byte} {angle column : BitVec 6} {e : IntEnd} {b : Byte} {f : FaultCode}

theorem castColumn_of_zero (h : intRay c angle column = (0, 0)) :
    castColumn c posx posy angle column = .error .recipZ := by
  have hnone := intStart_chosen_of_zero (posx := posx) (posy := posy) h
  rcases castColumn_spec c posx posy angle column with ⟨-, g⟩ | ⟨f, hf, -⟩ | ⟨E, b, hE, -⟩ | ⟨E, b, o, hE, -⟩
  · exact g
  · exact absurd hnone hf.chosen_ne_none
  · exact absurd hnone hE.chosen_ne_none
  · exact absurd hnone hE.chosen_ne_none

theorem castColumn_of_fails (h : (intStart c posx posy angle column).Fails c f) :
    castColumn c posx posy angle column = .error f := by
  rcases castColumn_spec c posx posy angle column with ⟨h0, -⟩ | ⟨f', hf, g⟩ | ⟨E, b, hE, -⟩ | ⟨E, b, o, hE, -⟩
  · exact absurd (intStart_chosen_of_zero h0) h.chosen_ne_none
  · exact fails_unique hf h ▸ g
  · exact (ends_fails hE h).elim
  · exact (ends_fails hE h).elim

/-- A cast whose walk reaches a wall answers by the height there: the commit, or HGTRNG (R165). -/
theorem castColumn_of_ends (h : (intStart c posx posy angle column).Ends c e) (hb : c.height[e.perp]? = some b) :
    (128 ≤ b.toNat ∧ castColumn c posx posy angle column = .error .hgtRng) ∨
      (b.toNat ≤ 127 ∧ ∃ o, castColumn c posx posy angle column = .ok o ∧
        ∀ s : State, (s.commitCast o).completed = s.afterCast (intRay c angle column) e b) := by
  rcases castColumn_spec c posx posy angle column with
    ⟨h0, -⟩ | ⟨f, hf, -⟩ | ⟨E, b', hE, hb', h128, g⟩ | ⟨E, b', o, hE, hb', h127, g, -, -, -, hcommit⟩
  · exact absurd (intStart_chosen_of_zero h0) h.chosen_ne_none
  · exact (ends_fails h hf).elim
  · obtain rfl := ends_unique hE h
    obtain rfl : b' = b := by simpa [hb'] using hb
    exact .inl ⟨h128, g⟩
  · obtain rfl := ends_unique hE h
    obtain rfl : b' = b := by simpa [hb'] using hb
    exact .inr ⟨h127, o, g, hcommit⟩

theorem castColumn_ok_of_ends (h : (intStart c posx posy angle column).Ends c e) (hb : c.height[e.perp]? = some b)
    (h127 : b.toNat ≤ 127) : ∃ o, castColumn c posx posy angle column = .ok o ∧
      ∀ s : State, (s.commitCast o).completed = s.afterCast (intRay c angle column) e b := by
  rcases castColumn_of_ends h hb with ⟨h128, -⟩ | ⟨-, hok⟩
  · omega
  · exact hok

theorem castColumn_eq_recipZ_iff :
    castColumn c posx posy angle column = .error .recipZ ↔ intRay c angle column = (0, 0) := by
  refine ⟨fun h => ?_, castColumn_of_zero⟩
  rcases castColumn_spec c posx posy angle column with ⟨h0, -⟩ | ⟨f, hf, g⟩ | ⟨E, b, -, -, -, g⟩ | ⟨E, b, o, -, -, -, g, -⟩
  · exact h0
  · obtain rfl : f = .recipZ := by simpa [h] using g.symm
    rcases fails_code hf with hf | hf <;> cases hf
  · simp [h] at g
  · simp [h] at g

end

theorem exec_casti_of_ok {s : State} {c : BitVec 6} {o : CastOut} (h : castColumn s.cfg s.posx s.posy s.angle c = .ok o) :
    exec (.casti c) s = .next { (s.commitCast o).completed with column := c } := by
  simp only [exec, execCasti, h, Except.map, perform_ok]
  rfl

theorem exec_casti_of_error {s : State} {c : BitVec 6} {k : FaultCode}
    (h : castColumn s.cfg s.posx s.posy s.angle c = .error k) : exec (.casti c) s = .next (s.raiseFault k) := by
  simp [exec, execCasti, h, Except.map]

theorem exec_cast_eq_raiseFault_iff {s : State} {k : FaultCode} :
    exec .cast s = .next (s.raiseFault k) ↔ castColumn s.cfg s.posx s.posy s.angle s.column = .error k := by
  refine ⟨fun h => ?_, exec_cast_of_error⟩
  rcases perform_map_cases h with ⟨o, -, ht⟩ | ⟨j, hj, ht⟩
  · exact absurd (congrArg State.phase ht) (by simp)
  · obtain rfl : k = j := FaultCode.code_injective (congrArg State.fcode ht)
    exact hj

/-! ### The walk inside a wall border -/

/-- A cell index strictly inside the border. -/
def Inner (m : Int) : Prop :=
  1 ≤ m ∧ m ≤ 6

/-- Cells an axis at index `m` can still enter before it enters the border. -/
def IntAxis.room (a : IntAxis) (m : Int) : Nat :=
  if a.dir = 1 then (6 - m).toNat else (m - 1).toNat

/-- The axis after an accumulation. -/
def IntAxis.accumulate (a : IntAxis) : IntAxis :=
  { a with side := a.side + a.delta }

/-- A property of every active axis at its cell index. -/
def IntWalk.Each (w : IntWalk) (P : Int → IntAxis → Prop) : Prop :=
  (∀ a, w.x = some a → P w.mx a) ∧ ∀ a, w.y = some a → P w.my a

/-- The walk stands inside the border, and each active axis steps by one cell (R156). -/
structure IntWalk.Inside (w : IntWalk) : Prop where
  mx : Inner w.mx
  my : Inner w.my
  dir : w.Each fun _ a => a.dir = 1 ∨ a.dir = -1

/-- Cells the walk can still enter before it enters the border. -/
def IntWalk.room (w : IntWalk) : Nat :=
  w.x.elim 0 (·.room w.mx) + w.y.elim 0 (·.room w.my)

/-- Deltas and side distances so small that no sum before the border leaves eight bits: six deltas of 31 are 186. -/
def IntAxis.Gentle (m : Int) (a : IntAxis) : Prop :=
  a.delta ≤ 31 ∧ a.side + 31 * a.room m ≤ 186

theorem IntAxis.room_step {a : IntAxis} {m : Int} (hd : a.dir = 1 ∨ a.dir = -1) (hm : Inner m) (hm' : Inner (m + a.dir)) :
    a.accumulate.room (m + a.dir) + 1 = a.room m := by
  unfold Inner at hm hm'
  rcases hd with hd | hd
  · rw [IntAxis.room, IntAxis.room, if_pos hd, if_pos (show a.accumulate.dir = 1 from hd)]
    omega
  · have hne : a.dir ≠ 1 := by omega
    rw [IntAxis.room, IntAxis.room, if_neg hne, if_neg (show a.accumulate.dir ≠ 1 from hne)]
    omega

theorem IntAxis.room_le (a : IntAxis) {m : Int} (hm : Inner m) : a.room m ≤ 5 := by
  unfold Inner at hm
  unfold IntAxis.room
  split <;> omega

theorem IntAxis.Gentle.step {a : IntAxis} {m : Int} (h : a.Gentle m) (hd : a.dir = 1 ∨ a.dir = -1) (hm : Inner m)
    (hm' : Inner (m + a.dir)) : a.side + a.delta < 256 ∧ a.accumulate.Gentle (m + a.dir) := by
  obtain ⟨hdelta, hside⟩ := h
  have hroom := IntAxis.room_step hd hm hm'
  refine ⟨by omega, hdelta, ?_⟩
  change a.side + a.delta + _ ≤ 186
  omega

/-- Everything a step of the integer walk can do: it advances and accumulates on one active axis. -/
theorem IntWalk.moved_cases {w : IntWalk} {a : IntAxis} (h : w.chosen = some a) :
    (w.x = some a ∧ w.moved a = { w with mx := w.mx + a.dir, x := some a.accumulate }) ∨
      (w.y = some a ∧ w.moved a = { w with my := w.my + a.dir, y := some a.accumulate }) := by
  unfold IntWalk.chosen at h
  unfold IntWalk.moved
  by_cases hx : w.takesX = true
  · rw [if_pos hx] at h ⊢
    exact .inl ⟨h, rfl⟩
  · rw [if_neg hx] at h ⊢
    exact .inr ⟨h, rfl⟩

/-- Within the grid every cell is wall, or floor inside the border. -/
theorem intCell_of_border {c : Cfg} (hb : c.WfGridBorder) {mx my : Int} (hx : 0 ≤ mx ∧ mx ≤ 7) (hy : 0 ≤ my ∧ my ≤ 7) :
    intCell c mx my = some .wall ∨ (intCell c mx my = some .floor ∧ Inner mx ∧ Inner my) := by
  obtain ⟨i, rfl⟩ : ∃ i : BitVec 3, mx = i.toNat := ⟨BitVec.ofNat 3 mx.toNat, by simp; omega⟩
  obtain ⟨j, rfl⟩ : ∃ j : BitVec 3, my = j.toNat := ⟨BitVec.ofNat 3 my.toNat, by simp; omega⟩
  rw [intCell_nat]
  cases hg : readGrid c i j with
  | wall => exact .inl rfl
  | floor =>
    have hring : ¬(i.toNat = 0 ∨ i.toNat = 7 ∨ j.toNat = 0 ∨ j.toNat = 7) := fun hring => by
      have hwall : readGrid c i j = .wall := hb i.toFin j.toFin hring
      simp [hg] at hwall
    exact .inr ⟨rfl, by unfold Inner; omega, by unfold Inner; omega⟩

section
variable {c : Cfg} {w : IntWalk} {a : IntAxis}

/-- From inside the border a step enters a wall, or stays inside with one cell less to go. -/
theorem IntWalk.Inside.step (hb : c.WfGridBorder) (h : w.Inside) (hc : w.chosen = some a) :
    w.entered c a = some .wall ∨
      (w.entered c a = some .floor ∧ (w.moved a).Inside ∧ (w.moved a).room + 1 = w.room) := by
  obtain ⟨hmx, hmy, hdx, hdy⟩ := h
  obtain ⟨hx0, hx1⟩ := id hmx
  obtain ⟨hy0, hy1⟩ := id hmy
  rcases IntWalk.moved_cases hc with ⟨hx, hmoved⟩ | ⟨hy, hmoved⟩
  · have hd := hdx a hx
    rw [IntWalk.entered, hmoved]
    refine (intCell_of_border hb (mx := w.mx + a.dir) (my := w.my) (by omega) (by omega)).imp_right ?_
    rintro ⟨hfloor, hmx', -⟩
    refine ⟨hfloor, ⟨hmx', hmy, fun a' ha' => Option.some.inj ha' ▸ hd, hdy⟩, ?_⟩
    have := IntAxis.room_step hd hmx hmx'
    simp only [IntWalk.room, hx, Option.elim_some]
    omega
  · have hd := hdy a hy
    rw [IntWalk.entered, hmoved]
    refine (intCell_of_border hb (mx := w.mx) (my := w.my + a.dir) (by omega) (by omega)).imp_right ?_
    rintro ⟨hfloor, -, hmy'⟩
    refine ⟨hfloor, ⟨hmx, hmy', hdx, fun a' ha' => Option.some.inj ha' ▸ hd⟩, ?_⟩
    have := IntAxis.room_step hd hmy hmy'
    simp only [IntWalk.room, hy, Option.elim_some]
    omega

theorem IntWalk.Inside.gentle_step (h : w.Inside) (h' : (w.moved a).Inside) (hc : w.chosen = some a)
    (hg : w.Each IntAxis.Gentle) : a.side + a.delta < 256 ∧ (w.moved a).Each IntAxis.Gentle := by
  obtain ⟨hgx, hgy⟩ := hg
  obtain ⟨hdx, hdy⟩ := h.dir
  rcases IntWalk.moved_cases hc with ⟨hx, hmoved⟩ | ⟨hy, hmoved⟩
  · rw [hmoved] at h' ⊢
    obtain ⟨hsum, hgentle⟩ := (hgx a hx).step (hdx a hx) h.mx h'.mx
    exact ⟨hsum, fun a' ha' => Option.some.inj ha' ▸ hgentle, hgy⟩
  · rw [hmoved] at h' ⊢
    obtain ⟨hsum, hgentle⟩ := (hgy a hy).step (hdy a hy) h.my h'.my
    exact ⟨hsum, hgx, fun a' ha' => Option.some.inj ha' ▸ hgentle⟩

theorem IntWalk.Inside.room_le (h : w.Inside) : w.room ≤ 10 := by
  have hle : ∀ (o : Option IntAxis) {m : Int}, Inner m → o.elim 0 (·.room m) ≤ 5 := fun o _ hm => by
    cases o with
    | none => simp
    | some a => exact a.room_le hm
  exact Nat.add_le_add (hle _ h.mx) (hle _ h.my)

/-- The wall border is the last cell a walk enters. -/
theorem IntWalk.Inside.steps_le {e : IntEnd} (hb : c.WfGridBorder) (h : w.Inside) (he : w.Ends c e) :
    e.steps ≤ w.room + 1 := by
  induction he with
  | hit w a hc hwall => exact Nat.le_add_left 1 _
  | goOn w a e hc hfloor hsum hends ih =>
    rcases h.step hb hc with hwall | ⟨-, hinside, hroom⟩
    · simp [hfloor] at hwall
    · rw [← hroom]
      exact Nat.succ_le_succ (ih hinside)

/-- Inside the border a walk can only break off by a sum that leaves eight bits, and not even so with gentle axes. -/
theorem IntWalk.Inside.fails {f : FaultCode} (hb : c.WfGridBorder) (h : w.Inside) (hf : w.Fails c f) :
    f = .sideOvf ∧ ¬w.Each IntAxis.Gentle := by
  induction hf with
  | leaves w a hc hnone => rcases h.step hb hc with hwall | ⟨hfloor, -⟩ <;> simp_all
  | carries w a hc hfloor hsum =>
    rcases h.step hb hc with hwall | ⟨-, hinside, -⟩
    · simp [hfloor] at hwall
    · refine ⟨rfl, fun hg => ?_⟩
      obtain ⟨hlt, -⟩ := h.gentle_step hinside hc hg
      omega
  | goOn w a f hc hfloor hsum hfails ih =>
    rcases h.step hb hc with hwall | ⟨-, hinside, -⟩
    · simp [hfloor] at hwall
    · obtain ⟨hcode, hgentle⟩ := ih hinside
      exact ⟨hcode, fun hg => hgentle (h.gentle_step hinside hc hg).2⟩

end

theorem intAxis_dir {c : Cfg} {r : Int} {p : Byte} {a : IntAxis} (h : intAxis c r p = some a) : a.dir = 1 ∨ a.dir = -1 := by
  unfold intAxis at h
  split at h
  · cases h
  · next hr =>
    cases h
    exact (lt_or_gt_of_ne hr).symm.imp Int.sign_eq_one_of_pos Int.sign_eq_neg_one_of_neg

/-- The edge is at most 32 sub-units away, so a first side distance is at most its delta (R158). -/
theorem intAxis_side_le {c : Cfg} {r : Int} {p : Byte} {a : IntAxis} (h : intAxis c r p = some a) : a.side ≤ a.delta := by
  unfold intAxis at h
  split at h
  · cases h
  · cases h
    refine Nat.div_le_of_le_mul (Nat.mul_le_mul_right _ ?_)
    split <;> omega

theorem intAxis_delta_le {c : Cfg} {r : Int} {p : Byte} {a : IntAxis} {n : Nat} (hn : ∀ m : Fin 256, c.recip[m].toNat ≤ n)
    (h : intAxis c r p = some a) : a.delta ≤ n := by
  unfold intAxis at h
  split at h
  · cases h
  · cases h
    by_cases hr : r.natAbs < 256
    · simpa [Vector.getElem?_eq_getElem hr] using hn ⟨r.natAbs, hr⟩
    · simp [Vector.getElem?_eq_none (xs := c.recip) (Nat.not_lt.1 hr)]

section
variable {c : Cfg} {posx posy : Byte} (angle column : BitVec 6)

theorem intStart_inside (hx : Cfg.Interior posx) (hy : Cfg.Interior posy) : (intStart c posx posy angle column).Inside where
  mx := by simp only [Inner, intStart]; omega
  my := by simp only [Inner, intStart]; omega
  dir := ⟨fun _ => intAxis_dir, fun _ => intAxis_dir⟩

theorem intStart_gentle (hx : Cfg.Interior posx) (hy : Cfg.Interior posy) (hrecip : ∀ m : Fin 256, c.recip[m].toNat ≤ 31) :
    (intStart c posx posy angle column).Each IntAxis.Gentle := by
  have hgentle : ∀ {r p m a}, Inner m → intAxis c r p = some a → a.Gentle m := fun {r p m a} hm ha => by
    have hside := intAxis_side_le ha
    have hdelta := intAxis_delta_le hrecip ha
    have hroom := a.room_le hm
    exact ⟨hdelta, by omega⟩
  obtain ⟨hmx, hmy, -⟩ := intStart_inside (c := c) angle column hx hy
  exact ⟨fun _ => hgentle hmx, fun _ => hgentle hmy⟩

/-- Everything a well-formed cast from inside the border can answer: it completes within eleven steps, or its walk breaks off with
SIDEOVF. -/
theorem castColumn_of_wf (hdir : c.WfDirBound) (hnz : c.WfDirNonzero) (hhgt : c.WfHgt7Bit) (hb : c.WfGridBorder)
    (hx : Cfg.Interior posx) (hy : Cfg.Interior posy) :
    (∃ o, castColumn c posx posy angle column = .ok o ∧ 1 ≤ o.steps.toNat ∧ o.steps.toNat ≤ 11) ∨
      ((intStart c posx posy angle column).Fails c .sideOvf ∧ castColumn c posx posy angle column = .error .sideOvf) := by
  have hinside := intStart_inside (c := c) angle column hx hy
  rcases castColumn_spec c posx posy angle column with
    ⟨h0, -⟩ | ⟨f, hf, g⟩ | ⟨E, b, -, hheight, h128, -⟩ | ⟨E, b, o, hE, -, -, g, -, hpos, -, hcommit⟩
  · exact absurd h0 (intRay_ne_zero hdir hnz angle column)
  · obtain ⟨rfl, -⟩ := hinside.fails hb hf
    exact .inr ⟨hf, g⟩
  · obtain ⟨hlt, rfl⟩ := Vector.getElem?_eq_some_iff.1 hheight
    have h127 : c.height[E.perp].toNat ≤ 127 := hhgt ⟨E.perp, hlt⟩
    omega
  · have hsteps : o.steps = BitVec.ofNat 4 E.steps := congrArg State.steps (hcommit State.reset)
    have hle := hinside.steps_le hb hE
    have hroom := hinside.room_le
    refine .inl ⟨o, g, ?_⟩
    rw [hsteps, BitVec.toNat_ofNat]
    omega

theorem castColumn_of_gentle (hdir : c.WfDirBound) (hnz : c.WfDirNonzero) (hhgt : c.WfHgt7Bit) (hb : c.WfGridBorder)
    (hx : Cfg.Interior posx) (hy : Cfg.Interior posy) (hrecip : ∀ m : Fin 256, c.recip[m].toNat ≤ 31) :
    ∃ o, castColumn c posx posy angle column = .ok o := by
  rcases castColumn_of_wf angle column hdir hnz hhgt hb hx hy with ⟨o, ho, -⟩ | ⟨hf, -⟩
  · exact ⟨o, ho⟩
  · exact absurd (intStart_gentle angle column hx hy hrecip) ((intStart_inside angle column hx hy).fails hb hf).2

end

/-! ### The walk with one axis active, and with the other active too -/

theorem lt8_eq_false_iff (a b : Byte) : lt8 a b = false ↔ b.toNat ≤ a.toNat := by
  rw [← Bool.not_eq_true, lt8_iff, Nat.not_lt]

/-- `a` and `b` have an axis in common, which is all of `a`, and the other axis of `b` is farther than `d` (R159: for Y, which ties
go to, no nearer). -/
inductive Active.Widens (d : Nat) : Active → Active → Prop where
  | x (x y : AxisRun) : d < y.side.toNat → Active.Widens d (.xOnly x) (.both x y)
  | y (x y : AxisRun) : d ≤ x.side.toNat → Active.Widens d (.yOnly y) (.both x y)

section
variable {c : Cfg} {d : Nat} {w t : Walk} {a b : Active} {e : WalkEnd}

/-- An accumulation on the only axis leaves it the only one. -/
theorem Active.Widens.accumulate (h : a.Widens d b) :
    a.accumulate.chosen = a.chosen.accumulate ∧ ∃ b', a.accumulate.Widens d b' := by
  cases h with
  | x x y hy => exact ⟨rfl, _, .x _ y hy⟩
  | y x y hx => exact ⟨rfl, _, .y x _ hx⟩

/-- As long as the common axis is within `d`, it is the one both advance. -/
theorem Active.Widens.same_choice (h : a.Widens d b) (hd : a.chosen.side.toNat ≤ d) :
    b.choice = a.choice ∧ b.chosen = a.chosen ∧ a.accumulate.Widens d b.accumulate := by
  cases h with
  | x x y hy =>
    have hlt : lt8 x.side y.side = true := (lt8_iff _ _).2 (hd.trans_lt hy)
    simp only [Active.choice, Active.chosen, Active.accumulate, hlt, if_true, true_and]
    exact .x _ _ hy
  | y x y hx =>
    have hlt : lt8 x.side y.side = false := (lt8_eq_false_iff _ _).2 (hd.trans hx)
    simp only [Active.choice, Active.chosen, Active.accumulate, hlt, Bool.false_eq_true, if_false, true_and]
    exact .y _ _ hx

theorem step_of_wall {m : BitVec 3} (h : advance (w.map w.active.choice) w.active.chosen.step = some m)
    (hg : readGrid c (w.moved m).mapX (w.moved m).mapY = .wall) : w.step c = .hit (w.ended m) := by
  simp [Walk.step, h, hg]

theorem step_of_floor {m : BitVec 3} (h : advance (w.map w.active.choice) w.active.chosen.step = some m)
    (hg : readGrid c (w.moved m).mapX (w.moved m).mapY = .floor)
    (hcarry : carryOut w.active.chosen.side w.active.chosen.delta = false) : w.step c = .goOn (w.moved m) := by
  simp [Walk.step, h, hg, hcarry]

theorem walk_succ_ok {n : Nat} (h : walk c (n + 1) w = .ok e) :
    w.step c = .hit e ∨ ∃ t, w.step c = .goOn t ∧ walk c n t = .ok e := by
  unfold walk at h
  cases hs : w.step c with
  | hit e' => simpa [hs] using h
  | goOn t => exact .inr ⟨t, rfl, by simpa [hs] using h⟩
  | fails f => simp [hs] at h

/-- A step looks at the chosen axis only, so the wider walk takes the same one. -/
theorem Active.Widens.step_hit (h : w.active.Widens d b) (hd : w.active.chosen.side.toNat ≤ d) (hs : w.step c = .hit e) :
    { w with active := b }.step c = .hit e := by
  obtain ⟨hchoice, hchosen, -⟩ := h.same_choice hd
  obtain ⟨m, hm, hg, rfl⟩ := Machine.step_hit hs
  have hended : { w with active := b }.ended m = w.ended m := by
    simp only [Walk.ended, Walk.moved, hchoice, hchosen]
  rw [← hended]
  refine step_of_wall ?_ ?_
  · rw [hchoice, hchosen]
    exact hm
  · simp only [Walk.moved, hchoice]
    exact hg

theorem Active.Widens.step_goOn (h : w.active.Widens d b) (hd : w.active.chosen.side.toNat ≤ d) (hs : w.step c = .goOn t) :
    t.active.Widens d b.accumulate ∧ { w with active := b }.step c = .goOn { t with active := b.accumulate } := by
  obtain ⟨hchoice, hchosen, hwidens⟩ := h.same_choice hd
  obtain ⟨m, hm, hg, hcarry, rfl⟩ := Machine.step_goOn hs
  have hmoved : { w with active := b }.moved m = { w.moved m with active := b.accumulate } := by
    simp only [Walk.moved, hchoice]
  rw [← hmoved]
  refine ⟨hwidens, step_of_floor ?_ ?_ ?_⟩
  · rw [hchoice, hchosen]
    exact hm
  · rw [hmoved]
    exact hg
  · rw [hchosen]
    exact hcarry

theorem correct_of_hit (h : w.step c = .hit e) : correct e.side e.delta = w.active.chosen.side := by
  obtain ⟨m, -, -, rfl⟩ := Machine.step_hit h
  exact correct_ended w m

theorem last_of_hit (h : w.step c = .hit e) : e.last = w.active.choice := by
  obtain ⟨m, -, -, rfl⟩ := Machine.step_hit h
  rfl

/-- A walk on one axis that goes on has not carried, so its side distance has not wrapped. -/
theorem Active.Widens.side_le_of_goOn (h : w.active.Widens d b) (hs : w.step c = .goOn t) :
    w.active.chosen.side.toNat ≤ t.active.chosen.side.toNat ∧ ∃ b', t.active.Widens d b' := by
  obtain ⟨m, -, -, hcarry, rfl⟩ := Machine.step_goOn hs
  obtain ⟨hchosen, hwidens⟩ := h.accumulate
  have hsum : w.active.chosen.side.toNat + w.active.chosen.delta.toNat < 256 := by simpa [carryOut] using hcarry
  refine ⟨?_, hwidens⟩
  rw [Walk.moved, hchosen, AxisRun.accumulate, add8_fst_toNat, Nat.mod_eq_of_lt hsum]
  exact Nat.le_add_right _ _

/-- The distance a walk on one axis finds is the last of its growing side distances (R164). -/
theorem Active.Widens.side_le {n : Nat} (h : w.active.Widens d b) (hw : walk c n w = .ok e) :
    w.active.chosen.side.toNat ≤ (correct e.side e.delta).toNat := by
  induction n generalizing w b with
  | zero => cases hw
  | succ n ih =>
    rcases walk_succ_ok hw with hs | ⟨t, hs, ht⟩
    · rw [correct_of_hit hs]
    · obtain ⟨hle, b', hb'⟩ := h.side_le_of_goOn hs
      exact hle.trans (ih hb' ht)

/-- So the wider walk takes the same steps up to the wall. -/
theorem Active.Widens.walk_ok {n : Nat} (h : w.active.Widens (correct e.side e.delta).toNat b) (hw : walk c n w = .ok e) :
    walk c n { w with active := b } = .ok e := by
  have hd := h.side_le hw
  induction n generalizing w b with
  | zero => cases hw
  | succ n ih =>
    rcases walk_succ_ok hw with hs | ⟨t, hs, ht⟩
    · rw [walk, h.step_hit hd hs]
    · obtain ⟨hwidens, hstep⟩ := h.step_goOn hd hs
      rw [walk, hstep]
      exact ih hwidens ht (hwidens.side_le ht)

end

/-! ### The source's scenarios -/

theorem readDir_zero {c : Cfg} (h : c.WfDir0) : readDir c 0 = { dx := 32, dy := 0 } :=
  h

/-- Column 32 is the centre of the screen: its factor is 0, and its ray is the direction itself (R152). -/
theorem rayGen_zero_centre {c : Cfg} (h : c.WfDir0) : rayGen c 0 32 = { x := 32, y := 0 } := by
  rw [rayGen, readDir_zero h]
  decide

theorem rayGen_zero_left {c : Cfg} (h : c.WfDir0) : rayGen c 0 0 = { x := 32, y := 32 } := by
  rw [rayGen, readDir_zero h]
  decide

section
variable {c : Cfg}

theorem intRay_zero_centre (h : c.WfDir0) : intRay c 0 32 = (32, 0) := by
  obtain ⟨hx, hy⟩ := rayGen_int c 0 32
  rw [rayGen_zero_centre h] at hx hy
  exact Prod.ext hx.symm hy.symm

/-- Scenario 1 starts in cell (3, 4) with X the only axis, 28 sub-units from its edge (R157, R158). -/
theorem intStart_scenarioOne (hdir : c.WfDir0) (hrec : c.WfRec32) :
    intStart c 100 128 0 32 = { mx := 3, my := 4, x := some ⟨8, 1, 7⟩, y := none } := by
  have hentry : c.recip[(32 : Int).natAbs]? = some 8 := Vector.getElem?_eq_some_iff.2 ⟨by decide, hrec⟩
  simp only [intStart, intRay_zero_centre hdir, intAxis, hentry]
  rfl

/-- The corridor's three cells ahead of the start, and the border behind them. -/
theorem intCell_scenarioOne (hb : c.WfGridBorder) (hcorridor : c.WfGridCorridor) :
    intCell c 4 4 = some .floor ∧ intCell c 5 4 = some .floor ∧ intCell c 6 4 = some .floor ∧ intCell c 7 4 = some .wall := by
  obtain ⟨-, h4, h5, h6⟩ := hcorridor
  have h7 : readGrid c 7 4 = .wall := hb 7 4 (by decide)
  exact ⟨(intCell_nat c 4 4).trans (congrArg some h4), (intCell_nat c 5 4).trans (congrArg some h5),
    (intCell_nat c 6 4).trans (congrArg some h6), (intCell_nat c 7 4).trans (congrArg some h7)⟩

theorem ends_scenarioOne (hdir : c.WfDir0) (hrec : c.WfRec32) (hb : c.WfGridBorder) (hcorridor : c.WfGridCorridor) :
    (intStart c 100 128 0 32).Ends c { mx := 7, my := 4, lastY := false, side := 39, delta := 8, steps := 4 } := by
  obtain ⟨h4, h5, h6, h7⟩ := intCell_scenarioOne hb hcorridor
  rw [intStart_scenarioOne hdir hrec]
  refine .goOn _ ⟨8, 1, 7⟩ { mx := 7, my := 4, lastY := false, side := 39, delta := 8, steps := 3 } rfl h4 (by decide) ?_
  refine .goOn _ ⟨8, 1, 15⟩ { mx := 7, my := 4, lastY := false, side := 39, delta := 8, steps := 2 } rfl h5 (by decide) ?_
  refine .goOn _ ⟨8, 1, 23⟩ { mx := 7, my := 4, lastY := false, side := 39, delta := 8, steps := 1 } rfl h6 (by decide) ?_
  exact .hit _ ⟨8, 1, 31⟩ rfl h7

end

/-! ### The statements -/

/-- Settles O39. -/
theorem rayIsExactWithinBound : Obligations.RayIsExactWithinBound :=
  fun _ angle column h => rayGen_exact h angle column

/-- Settles O40. -/
theorem rayIsNeverZeroWhenWellFormed : Obligations.RayIsNeverZeroWhenWellFormed :=
  fun _ angle column hb hn => rayGen_ne_zero hb hn angle column

/-- Settles O41: the machine's walk and the integer walk are each other's only answer (`castColumn_of_ends`). -/
theorem castCompletesAsTheIntegerWalk : Obligations.CastCompletesAsTheIntegerWalk := by
  refine ⟨fun s e b he hb h127 => ?cast, fun s c e b he hb h127 => ?casti⟩
  case cast =>
    obtain ⟨o, ho, hcommit⟩ := castColumn_ok_of_ends he hb h127
    rw [exec_cast_of_ok ho, hcommit]
  case casti =>
    obtain ⟨o, ho, hcommit⟩ := castColumn_ok_of_ends he hb h127
    rw [exec_casti_of_ok ho, hcommit]

/-- Settles O42. -/
theorem completedCastIsAnIntegerWalk : Obligations.CompletedCastIsAnIntegerWalk := by
  intro s t h hp
  rcases perform_map_cases h with ⟨o, ho, rfl⟩ | ⟨k, -, rfl⟩
  · rcases castColumn_spec s.cfg s.posx s.posy s.angle s.column with
      ⟨-, g⟩ | ⟨f, -, g⟩ | ⟨E, b, -, -, -, g⟩ | ⟨E, b, o', hE, hb, h127, g, hperp, -, -, hcommit⟩
    · simp [ho] at g
    · simp [ho] at g
    · simp [ho] at g
    · obtain rfl : o = o' := by simpa [ho] using g
      exact ⟨E, b, hE, hperp, hb, h127, hcommit s⟩
  · simp at hp

/-- Settles O43. -/
theorem castFaultsWhereTheWalkBreaks : Obligations.CastFaultsWhereTheWalkBreaks := by
  refine ⟨fun s => exec_cast_eq_raiseFault_iff.trans castColumn_eq_recipZ_iff,
    fun s f hf => exec_cast_of_error (castColumn_of_fails hf), fun s e b he hb h128 => ?_⟩
  rcases castColumn_of_ends he hb with ⟨-, h⟩ | ⟨h127, -⟩
  · exact exec_cast_of_error h
  · omega

/-- Settles O44: the steps left before the edge of the grid bound the walk (`walk_spec`). -/
theorem everyWalkEnds : Obligations.EveryWalkEnds := by
  intro c posx posy angle column h
  rcases dispatch_cases c angle column posx posy with ⟨h0, -⟩ | ⟨-, a, -, hstart⟩
  · exact absurd h0 h
  · rw [← hstart]
    rcases walk_spec c walkFuel (setup posx posy a) (left_lt_fuel _) with ⟨e, E, -, hE, hmatch⟩ | ⟨f, -, hf⟩
    · exact .inl ⟨E, hE, hmatch.pos, hmatch.le.trans (left_le _)⟩
    · exact .inr ⟨f, hf⟩

/-- Settles O45. -/
theorem wellFormedCastOnlyFaultsSideovf : Obligations.WellFormedCastOnlyFaultsSideovf := by
  intro s hdir hnz hhgt hb hx hy
  rcases castColumn_of_wf s.angle s.column hdir hnz hhgt hb hx hy with ⟨o, ho, hpos, hle⟩ | ⟨-, h⟩
  · exact .inl ⟨_, exec_cast_of_ok ho, rfl, rfl, hpos, hle⟩
  · exact .inr (exec_cast_of_error h)

/-- Settles O46. -/
theorem castCompletesWithSmallReciprocals : Obligations.CastCompletesWithSmallReciprocals := by
  intro s hdir hnz hhgt hb hx hy hrecip
  have hcast := fun column => castColumn_of_gentle s.angle column hdir hnz hhgt hb hx hy hrecip
  refine ⟨?cast, fun c => ?casti⟩
  case cast =>
    obtain ⟨o, ho⟩ := hcast s.column
    exact ⟨_, exec_cast_of_ok ho, rfl, rfl⟩
  case casti =>
    obtain ⟨o, ho⟩ := hcast c
    exact ⟨_, exec_casti_of_ok ho, rfl, rfl, rfl⟩

/-- Settles O47: both are given by one call of `castColumn`. -/
theorem castiIsCastOfItsColumn : Obligations.CastiIsCastOfItsColumn := by
  refine ⟨encode_casti_toNat, fun s t c h => ?_⟩
  rcases perform_map_cases h with ⟨o, ho, rfl⟩ | ⟨k, hk, rfl⟩
  · exact ⟨fun _ => exec_casti_of_ok ho, by simp⟩
  · exact ⟨by simp, fun _ => exec_casti_of_error hk⟩

/-- Settles O49: the correction takes back the last accumulation (`correct_of_hit`). -/
theorem distanceIsTheSmallerSide : Obligations.DistanceIsTheSmallerSide := by
  intro c w x y e hboth h
  rw [correct_of_hit h, last_of_hit h, hboth]
  cases hlt : lt8 x.side y.side with
  | true => simpa [Active.choice, Active.chosen, hlt] using (lt8_iff _ _).1 hlt
  | false => simpa [Active.choice, Active.chosen, hlt] using (lt8_eq_false_iff _ _).1 hlt

/-- Settles O50. -/
theorem restrictedWalkAgreesWithGeneral : Obligations.RestrictedWalkAgreesWithGeneral := by
  refine ⟨fun c n w x y e hx hw hy => ?x, fun c n w x y e hy hw hx => ?y⟩
  case x => exact Active.Widens.walk_ok (hx ▸ .x x y hy) hw
  case y => exact Active.Widens.walk_ok (hy ▸ .y x y hx) hw

/-- Settles O51: the integer walk of the scenario takes four steps along the corridor. -/
theorem sourceScenarioOne : Obligations.SourceScenarioOne := by
  intro s hdir hrec hhgt hb hcorridor hx hy hangle hcolumn
  have hends : (intStart s.cfg s.posx s.posy s.angle s.column).Ends s.cfg _ :=
    hx ▸ hy ▸ hangle ▸ hcolumn ▸ ends_scenarioOne hdir hrec hb hcorridor
  have hheight : s.cfg.height[39 - 8]? = some 8 := Vector.getElem?_eq_some_iff.2 ⟨by decide, hhgt⟩
  have hray : intRay s.cfg s.angle s.column = (32, 0) := hangle ▸ hcolumn ▸ intRay_zero_centre hdir
  rw [castCompletesAsTheIntegerWalk.1 s _ 8 hends hheight (by decide), hray]
  rfl

/-- Settles O52. -/
theorem sourceScenarioTwoRays : Obligations.SourceScenarioTwoRays :=
  fun _ h => ⟨rayGen_zero_left h, rayGen_zero_centre h⟩

end Sys2Proof.Machine

/-! # The column strip (spec/43_strip.md)

First the half extent and the axis's glyph as numbers; then the rows a strip covers; then what STRIP answers where the strip fits
the screen and where it does not; then the statements. -/

namespace Sys2Proof.Machine

/-! ### The operands of STRIP as numbers -/

theorem heightField_toNat (r : Byte) : (heightField r).toNat = r.toNat % 128 := by
  simp [heightField, BitVec.extractLsb'_toNat]

theorem halfExtent_eq (r : Byte) : halfExtent r = r.toNat % 128 / 3 := by
  rw [halfExtent, div3_toNat, heightField_toNat]

/-- Heights to 26 are those whose strip starts on the screen (R192). -/
theorem halfExtent_le_iff (r : Byte) : halfExtent r ≤ 8 ↔ r.toNat % 128 ≤ 26 := by
  rw [halfExtent_eq]
  omega

theorem axisGlyph_eq (r : Byte) : axisGlyph r = if 128 ≤ r.toNat then 2 else 1 := by
  simp only [axisGlyph, axisFlag, bit7_eq, decide_eq_true_eq]

theorem axisGlyph_toNat_ne_zero (r : Byte) : (axisGlyph r).toNat ≠ 0 := by
  rw [axisGlyph]
  split <;> decide

/-! ### The rows a strip covers -/

/-- The rows of a strip of a given half extent, `[8 - half, 8 + half)` (R190). -/
abbrev StripCovers (half row : Nat) : Prop :=
  8 - half ≤ row ∧ row < 8 + half

/-- The mirror of rows 0 to 15 about the boundary between rows 7 and 8 keeps the strip (R191). -/
theorem stripCovers_mirror {half row : Nat} (hh : half ≤ 8) (hr : row < 16) :
    StripCovers half (15 - row) ↔ StripCovers half row := by
  unfold StripCovers
  omega

theorem length_filter_stripCovers :
    ∀ half ≤ 8, ((List.range 16).filter fun row => StripCovers half row).length = 2 * half := by
  decide

/-! ### What STRIP answers -/

theorem stripGlyph_of_fits {r : Byte} (row : BitVec 4) (h : halfExtent r ≤ 8) :
    stripGlyph r row = .ok (if StripCovers (halfExtent r) row.toNat then axisGlyph r else 0) := by
  have hfits : ¬ Config.centreRow < halfExtent r := Nat.not_lt.2 h
  rw [stripGlyph, if_neg hfits, apply_ite Except.ok]
  rfl

theorem stripGlyph_of_not_fits {r : Byte} (row : BitVec 4) (h : 8 < halfExtent r) :
    stripGlyph r row = .error .stripRng :=
  if_pos h

theorem exec_strip_of_fits {s : State} (h : halfExtent s.result ≤ 8) :
    exec .strip s = .next (State.completed { s with
      glyph := if StripCovers (halfExtent s.result) s.row.toNat then axisGlyph s.result else 0 }) := by
  rw [exec, execStrip, stripGlyph_of_fits s.row h, Except.map, perform_ok]

theorem exec_strip_of_not_fits {s : State} (h : 8 < halfExtent s.result) :
    exec .strip s = .next (s.raiseFault .stripRng) := by
  rw [exec, execStrip, stripGlyph_of_not_fits s.row h, Except.map, perform_error]

theorem stripAt_of_fits {s : State} {row : Nat} (h : halfExtent s.result ≤ 8) (hr : row < 16) :
    s.stripAt row = some (if StripCovers (halfExtent s.result) row then (axisGlyph s.result).toNat else 0) := by
  have hrow : (BitVec.ofNat 4 row).toNat = row := Nat.mod_eq_of_lt hr
  have hexec := exec_strip_of_fits (s := { s with row := BitVec.ofNat 4 row }) h
  rw [State.stripAt, hexec, hrow]
  exact congrArg some (apply_ite BitVec.toNat _ _ _)

/-- A row is answered non-blank just if the strip covers it: both axes' glyphs are non-blank (R193). -/
theorem stripAt_ne_blank_iff {s : State} {row : Nat} (h : halfExtent s.result ≤ 8) (hr : row < 16) :
    s.stripAt row ≠ some 0 ↔ StripCovers (halfExtent s.result) row := by
  rw [stripAt_of_fits h hr]
  simp [axisGlyph_toNat_ne_zero]

/-! ### The statements -/

/-- Settles O32: the strip fits the screen, or it does not. -/
theorem stripAnswersForARow : Obligations.StripAnswersForARow := by
  refine ⟨by decide, fun s => ⟨fun h => ?fits, fun h => ?fault⟩⟩
  case fits => rw [exec_strip_of_fits ((halfExtent_le_iff _).2 h), State.completed, halfExtent_eq, axisGlyph_eq]
  case fault =>
    have hout : 8 < halfExtent s.result := by
      rw [halfExtent_eq]
      omega
    rw [exec_strip_of_not_fits hout, State.raiseFault, FaultCode.code]

/-- Settles O33: the rows answered non-blank are those the strip covers, and the mirror keeps these. -/
theorem stripIsSymmetric : Obligations.StripIsSymmetric := by
  intro s hheight
  have h := (halfExtent_le_iff s.result).2 hheight
  refine ⟨?count, fun row hr => ?mirror⟩
  case count =>
    have hcovers : ∀ row ∈ List.range 16, (s.stripAt row != some 0) = decide (StripCovers (halfExtent s.result) row) := by
      intro row hr
      rw [Bool.eq_iff_iff, bne_iff_ne, decide_eq_true_iff, stripAt_ne_blank_iff h (List.mem_range.1 hr)]
    rw [List.filter_congr hcovers, length_filter_stripCovers _ h, halfExtent_eq]
  case mirror =>
    have hr' : 15 - row < 16 := by omega
    simp only [stripAt_of_fits h hr, stripAt_of_fits h hr', stripCovers_mirror h hr]

end Sys2Proof.Machine

/-! # Faults (spec/60_exceptions.md)

First what ends in a fault, which is always an entry through `raiseFault`; then what a faulted engine does with an event, a step and a
run of steps; then the statements. -/

namespace Sys2Proof.Machine

/-! ### What ends in a fault -/

theorem status_raiseFault (s : State) (k : FaultCode) : (s.raiseFault k).status = 0x04 := by
  simp [State.status]

/-- A command that ends faulted has entered the fault from the state it was performed in (R205). -/
theorem exec_raises_of_faulted {i : Instr} {s t : State} (h : exec i s = .next t) (hp : t.phase = .faulted) :
    ∃ k, t = s.raiseFault k := by
  rcases exec_end_cases h with ⟨hidle, -⟩ | hfault
  · simp [hidle] at hp
  · exact hfault

/-- A write that makes the engine faulted has entered the fault from the state it was made in (R205). -/
theorem hostWrite_raises_of_faulted {s : State} {a : RegAddr} {v : Byte} (hs : s.phase ≠ .faulted)
    (hp : (s.hostWrite a v).phase = .faulted) : ∃ k, s.hostWrite a v = s.raiseFault k := by
  rcases hostWrite_cases s a v with h | ⟨-, h⟩ | ⟨-, h | ⟨r, hr, h⟩⟩ <;> rw [h] at hp ⊢
  · exact absurd hp hs
  · exact ⟨_, rfl⟩
  · cases hd : decode v with
    | command i => simp [accept_of_command hd] at hp
    | reserved => exact ⟨_, accept_of_reserved hd⟩
  · obtain ⟨hphase, -⟩ := writeReg_keeps_sequencer (s := s) (v := v) hr
    exact absurd (hphase ▸ hp) hs

/-- The accept of a command shows in STATUS only (R32). -/
theorem readReg_accept_of_command {s : State} {v : Byte} {i : Instr} {r : Reg} (hd : decode v = .command i)
    (h : r ≠ .status) : (s.accept v).readReg r = s.readReg r := by
  rw [accept_of_command hd]
  cases r with
  | status => exact absurd rfl h
  | _ => rfl

/-- Every command but the casts and STRIP completes (R208). -/
theorem exec_completes {i : Instr} (s : State) (hcast : i ≠ .cast) (hcasti : ∀ c, i ≠ .casti c) (hstrip : i ≠ .strip) :
    ∃ u : State, exec i s = .next u.completed ∧ u.fcode = s.fcode := by
  obtain ⟨t, h⟩ := exec_next i s
  rcases exec_cases h with ⟨u, rfl, -, hfcode, -⟩ | ⟨k, -, ⟨hi | ⟨c, hi⟩, -⟩ | ⟨hi, -⟩⟩
  · exact ⟨u, h, hfcode⟩
  · exact absurd hi hcast
  · exact absurd hi (hcasti c)
  · exact absurd hi hstrip

/-! ### A faulted engine -/

/-- Only a reset changes a faulted engine; the other events are at most recorded (R206). -/
theorem takeEvent_of_faulted {e : Event} {s : State} (hp : s.phase = .faulted) (he : e ≠ .reset) :
    ∃ rs, takeEvent e s = .next { s with reads := rs } := by
  have hb : s.phase ≠ .busy := by simp [hp]
  cases e with
  | engine => exact ⟨s.reads, complete_of_not_busy hb⟩
  | read a => exact ⟨_, rfl⟩
  | write a v => exact ⟨s.reads, congrArg _ (hostWrite_of_faulted a v hp)⟩
  | reset => exact absurd rfl he
  | poll n => exact ⟨_, by rw [takeEvent, pollOnce_eq, pollRest_of_not_busy n hb, List.nil_append]⟩

theorem nextEvent_ne_reset {s : State} (h : .reset ∉ s.inputs) : s.nextEvent ≠ .reset := by
  cases hs : s.inputs with
  | nil => simp [nextEvent_of_nil hs]
  | cons e es =>
    rw [nextEvent_of_cons hs]
    rintro rfl
    simp [hs] at h

theorem step_of_faulted {s : State} (hp : s.phase = .faulted) (h : .reset ∉ s.inputs) :
    ∃ rs, step s = .next { s with inputs := s.inputs.tail, reads := rs } :=
  takeEvent_of_faulted (s := s.dropEvent) hp (nextEvent_ne_reset h)

/-- A faulted engine takes events other than resets off the list, one in each step, and keeps every register (R206). -/
theorem run_of_faulted (n : Nat) : ∀ {s : State}, s.phase = .faulted → .reset ∉ s.inputs →
    ∃ rs, run n s = .next { s with inputs := s.inputs.drop n, reads := rs } := by
  induction n with
  | zero => exact fun {s} _ _ => ⟨s.reads, rfl⟩
  | succ n ih =>
    intro s hp h
    obtain ⟨rs, hstep⟩ := step_of_faulted hp h
    have htail : .reset ∉ s.inputs.tail := mt List.mem_of_mem_tail h
    obtain ⟨rs', hrun⟩ := ih (s := { s with inputs := s.inputs.tail, reads := rs }) hp htail
    exact ⟨rs', by rw [run_succ hstep, hrun, List.drop_tail]⟩

/-! ### The statements -/

/-- Settles O21: both ends of a fault are an entry through `raiseFault`, and the accept before it shows in STATUS only. -/
theorem faultsArePrecise : Obligations.FaultsArePrecise := by
  refine ⟨fun i s t => exec_raises_of_faulted, fun s a v => hostWrite_raises_of_faulted, fun i s t hs h hp r hst hf => ?_⟩
  rw [hostWrite_cmd_of_idle _ hs] at h
  obtain ⟨k, rfl⟩ := exec_raises_of_faulted h hp
  rw [readReg_raiseFault hst hf, readReg_accept_of_command (decode_encode i) hst]

/-- Settles O22: the causes of each command are those of `exec_cases`. -/
theorem onlyCastsAndStripFault : Obligations.OnlyCastsAndStripFault := by
  refine ⟨fun i s t h hp => ?faults, fun i s hcast hcasti hstrip => ?completes⟩
  case faults =>
    rcases exec_cases h with ⟨u, rfl, -⟩ | ⟨k, rfl, hi | ⟨hi, rfl⟩⟩
    · simp at hp
    · exact .inl hi
    · exact .inr ⟨hi, rfl⟩
  case completes =>
    obtain ⟨u, h, hfcode⟩ := exec_completes s hcast hcasti hstrip
    exact ⟨_, h, rfl, rfl, hfcode⟩

/-- Settles O23. -/
theorem faultedIsTerminalUntilReset : Obligations.FaultedIsTerminalUntilReset := by
  refine ⟨fun n s hp h => ?_, fun s rest _ hs => step_of_cons hs⟩
  obtain ⟨rs, hrun⟩ := run_of_faulted n hp h
  exact ⟨_, hrun, rfl⟩

/-- Settles O20: FAULT reads the code of any state (R29), and STATUS only its bit 2. -/
theorem faultEntry : Obligations.FaultEntry := by
  obtain ⟨hfault, -⟩ := faultRegister
  exact ⟨fun s k => ⟨rfl, (hostRead_status _).trans (status_raiseFault s k), hfault _⟩, rfl, rfl, rfl, rfl, rfl, rfl, rfl⟩

end Sys2Proof.Machine

/-! # Reset and the engine's turn (spec/70_reset_and_hazards.md)

First a run through the reads at the head of the list of events; then the statements. -/

namespace Sys2Proof.Machine

/-! ### The host's reads -/

theorem step_read {s : State} {a : RegAddr} {rest : List Event} (hs : s.inputs = .read a :: rest) :
    step s = .next { s with inputs := rest, reads := s.reads ++ [s.hostRead a] } :=
  (stepLetsTheNextEventAct s rest).1 a hs

/-- Reads are recorded one in each step, in every phase, and each returns what its register held before the first (R56). -/
theorem run_reads (k : Nat) : ∀ (as : List RegAddr) {s : State} {rest : List Event},
    s.inputs = as.map Event.read ++ rest →
      run (as.length + k) s = run k { s with inputs := rest, reads := s.reads ++ as.map s.hostRead }
  | [], s, rest, hs => by
    obtain rfl : s.inputs = rest := hs
    rw [List.length_nil, Nat.zero_add, List.map_nil, List.append_nil]
  | a :: as, s, rest, hs => by
    have hstep : step s = .next { s with inputs := as.map Event.read ++ rest, reads := s.reads ++ [s.hostRead a] } :=
      step_read hs
    have hkept : ({ s with inputs := as.map Event.read ++ rest, reads := s.reads ++ [s.hostRead a] } : State).hostRead =
        s.hostRead := funext (hostRead_env s _ _)
    rw [List.length_cons, Nat.add_right_comm, run_succ hstep, run_reads k as rfl, hkept, List.append_assoc]
    rfl

/-! ### The statements -/

/-- Settles O19: after the reads the list is empty, and the engine's turn performs the command, which ends not busy. -/
theorem busyEngineCompletesAfterReads : Obligations.BusyEngineCompletesAfterReads := by
  intro s i as hp hd hs
  obtain ⟨t, ht⟩ := exec_next i { s with inputs := [], reads := s.reads ++ as.map s.hostRead }
  refine ⟨?_, t, ht, exec_phase ht⟩
  rw [run_reads 1 as (hs.trans (List.append_nil _).symm), run_one, step_of_nil rfl]
  exact complete_of_command hp hd

/-- Settles O24: the fields are those of `resetEvent` (R36), and STATUS is one of the host's reads after a reset. -/
theorem resetGivesEveryRegisterItsValue : Obligations.ResetGivesEveryRegisterItsValue := by
  rintro s _ rfl
  have hstatus : s.resetEvent.hostRead 0x08 = 0x00 := BitVec.eq_of_toNat_eq (hostReadsAfterReset.1 s 0x08)
  simpa using hstatus

end Sys2Proof.Machine
